-- ==== Sys2Proof/Word.lean ====
section
/-! DEFINITION. The words of the packet codec, at the widths of 00_scope.md R6 and 30_encoding.md R60. -/

namespace Sys2Proof

/-- One octet of the packet (00_scope.md R6, R7): bit 7 is the most significant. -/
abbrev Byte := BitVec 8

/-- A command word on the `cmd` port (30_encoding.md R61). -/
abbrev CmdWord := BitVec 16

/-- A decoded duration (two's complement) or timestamp (unsigned): a 64-bit nanosecond count (00_scope.md R6). -/
abbrev Nanos := BitVec 64

/-- The response port `rsp_data` (30_encoding.md R60). -/
abbrev RspData := BitVec 384

/-- The packet: exactly 48 octets, offset 0 the first on the wire (10_state.md R20). -/
abbrev Packet := Vector Byte 48

end Sys2Proof
end

