-- ==== Sys2Proof/Config.lean ====
section
/-! DEFINITION. What one build of the block fixes (00_scope.md R5) and the constants of 00_scope.md R6, R9.
The spec leaves no value open, so there is no free value here. -/

namespace Sys2Proof

/-- `P_FLAG_WRITE` (00_scope.md R5): what a byte-0 setter does with the old bits of its sub-field. -/
inductive FlagWrite
  /-- setters OR the shifted value into byte 0 -/
  | or
  /-- setters replace the sub-field -/
  | assign
deriving DecidableEq, Repr

/-- `P_ROOT_SCALE` (00_scope.md R5): the unit of a decoded root delay or root dispersion. -/
inductive RootScale
  /-- elapsed nanoseconds -/
  | rfc
  /-- that count times a further 1_000_000_000 -/
  | legacy
deriving DecidableEq, Repr

/-- The build parameters, fixed for the life of one block (00_scope.md R5; 10_state.md R26). -/
structure Params where
  flagWrite : FlagWrite
  rootScale : RootScale
deriving DecidableEq, Repr

/-- The defaults of 00_scope.md R5. -/
def Params.default : Params := ⟨.or, .rfc⟩

/-- `NS`: nanoseconds per second (00_scope.md R9). -/
def nsPerSecond : Nat := 1000000000

/-- `P_LEN_BITS`: the width of `ld_len` in a hardware realisation (00_scope.md R6). -/
def lenBits : Nat := 16

end Sys2Proof
end

