-- ==== Sys2Proof/Syntax.lean ====
section
/-! DEFINITION. The 19 commands, one constructor per row of spec/opcode_table.json (30_encoding.md R64). -/

namespace Sys2Proof

/-- A command. A setter's operand `v` is the unsigned value of `imm8` (30_encoding.md R63(a)), so 0 to 255 in a
well-formed command; DESERIALIZE's operands stand on the load port, not in the command (R63(c), R69). -/
inductive Instr
  | create
  | setLeap (v : Nat)
  | setVersion (v : Nat)
  | setMode (v : Nat)
  | getLeap
  | getVersion
  | getMode
  | getStratum
  | getPoll
  | getPrecision
  | getRootDelay
  | getRootDispersion
  | getRefId
  | getRefTs
  | getOriginTs
  | getReceiveTs
  | getTransmitTs
  | serialize
  | deserialize
deriving DecidableEq, Repr

/-- The immediate byte's value: a setter's operand, and 0 for formats N and D (30_encoding.md R62). -/
def Instr.immediate : Instr → Nat
  | .setLeap v | .setVersion v | .setMode v => v
  | .create | .getLeap | .getVersion | .getMode | .getStratum | .getPoll | .getPrecision | .getRootDelay
  | .getRootDispersion | .getRefId | .getRefTs | .getOriginTs | .getReceiveTs | .getTransmitTs | .serialize
  | .deserialize => 0

/-- One transaction's request: the three input ports of 30_encoding.md R60. `ldLen` is an unbounded natural in the
model (00_scope.md R6). `ldData` holds the 48 bytes of the load port; bytes beyond `min(ld_len, 48)` are don't-care
(R60; DESIGN CHOICE, safe, log 6). -/
structure Request where
  cmd    : CmdWord
  ldLen  : Nat
  ldData : Packet
deriving DecidableEq, Repr

end Sys2Proof
end

