-- ==== Sys2Proof/WellFormed.lean ====
section
/-! DEFINITION. Which commands an encoding can carry, and which requests a hardware realisation's ports can. -/

namespace Sys2Proof

/-- A setter's operand fits the immediate byte, 0 to 255 (30_encoding.md R63(a), R70(b)). A value above the field's
own maximum is well-formed: the command raises CONFIG_ERROR (R67). -/
abbrev Instr.WellFormed (i : Instr) : Prop := i.immediate ≤ 255

/-- `ld_len` fits the `P_LEN_BITS` port of a realisation (30_encoding.md R60; 46_transfer.md R185). -/
abbrev Request.WellFormed (r : Request) : Prop := r.ldLen < 2 ^ lenBits

end Sys2Proof
end

