-- ==== Sys2Proof/Decode.lean ====
section
/-! DEFINITION. The decoder of command words, total over all 2^16 of them (30_encoding.md R61 to R64, R67), and the encoder. -/

namespace Sys2Proof

/-- Why a word is illegal (30_encoding.md R67). The block answers both alike, with status ILLEGAL. -/
inductive DecodeError
  /-- an opcode outside the 19 of R64 -/
  | undefinedOpcode (opcode : Byte)
  /-- a format N or D opcode with a non-zero `imm8` -/
  | nonzeroImmediate (opcode imm8 : Byte)
deriving DecidableEq, Repr

/-- `opcode = cmd[15:8]` (30_encoding.md R61). -/
def opcodeOf (w : CmdWord) : Byte := w.extractLsb' 8 8

/-- `imm8 = cmd[7:0]` (30_encoding.md R61). -/
def imm8Of (w : CmdWord) : Byte := w.extractLsb' 0 8

/-- Formats N and D: `imm8` must be 0 (30_encoding.md R62). -/
def noOperand (i : Instr) (w : CmdWord) : Except DecodeError Instr :=
  if imm8Of w = 0 then .ok i else .error (.nonzeroImmediate (opcodeOf w) (imm8Of w))

/-- The decoder: the opcode map of 30_encoding.md R64; every word outside R67's legal ones is rejected. -/
def decode (w : CmdWord) : Except DecodeError Instr :=
  match (opcodeOf w).toNat with
  | 0x01 => noOperand .create w
  | 0x10 => .ok (.setLeap (imm8Of w).toNat)
  | 0x11 => .ok (.setVersion (imm8Of w).toNat)
  | 0x12 => .ok (.setMode (imm8Of w).toNat)
  | 0x20 => noOperand .getLeap w
  | 0x21 => noOperand .getVersion w
  | 0x22 => noOperand .getMode w
  | 0x23 => noOperand .getStratum w
  | 0x24 => noOperand .getPoll w
  | 0x25 => noOperand .getPrecision w
  | 0x26 => noOperand .getRootDelay w
  | 0x27 => noOperand .getRootDispersion w
  | 0x28 => noOperand .getRefId w
  | 0x29 => noOperand .getRefTs w
  | 0x2A => noOperand .getOriginTs w
  | 0x2B => noOperand .getReceiveTs w
  | 0x2C => noOperand .getTransmitTs w
  | 0x30 => noOperand .serialize w
  | 0x31 => noOperand .deserialize w
  | _ => .error (.undefinedOpcode (opcodeOf w))

/-- The opcode of each command (30_encoding.md R64). -/
def Instr.opcode : Instr → Byte
  | .create => 0x01
  | .setLeap _ => 0x10
  | .setVersion _ => 0x11
  | .setMode _ => 0x12
  | .getLeap => 0x20
  | .getVersion => 0x21
  | .getMode => 0x22
  | .getStratum => 0x23
  | .getPoll => 0x24
  | .getPrecision => 0x25
  | .getRootDelay => 0x26
  | .getRootDispersion => 0x27
  | .getRefId => 0x28
  | .getRefTs => 0x29
  | .getOriginTs => 0x2A
  | .getReceiveTs => 0x2B
  | .getTransmitTs => 0x2C
  | .serialize => 0x30
  | .deserialize => 0x31

/-- The command word of a well-formed command: `opcode` above `imm8` (30_encoding.md R61, R62). -/
def encode (i : Instr) : CmdWord := i.opcode ++ BitVec.ofNat 8 i.immediate

/-- The command a word of opcode_table.json's numbering stands for: bit 0 of `w` is bit 0 of `cmd`, and bits from `nbits`
up are 0. A word with a bit above bit 15 is no command word (30_encoding.md R61: one length, 16 bits). -/
def decodeTableWord (nbits w : Nat) : Option Instr :=
  if w % 2 ^ nbits < 2 ^ 16 then
    match decode (BitVec.ofNat 16 (w % 2 ^ nbits)) with
    | .ok i => some i
    | .error _ => none
  else none

end Sys2Proof
end

