-- ==== Sys2Proof/Machine/State.lean ====
section
/-! DEFINITION. The state of the block (10_state.md R20, R21, R29), the ports of its one transaction (30_encoding.md R60),
and the reasons a host operation can have no step. Every field is plain data. -/

namespace Sys2Proof.Machine

/-- The status of a response (60_exceptions.md R200). -/
inductive Status
  /-- the command completed -/
  | ok
  /-- a setter's operand exceeds its field's range -/
  | configError
  /-- a buffer handed to DESERIALIZE is not exactly 48 bytes -/
  | truncated
  /-- the block holds no packet -/
  | noPacket
  /-- the command word is not a legal encoding -/
  | illegal
deriving DecidableEq, Repr

/-- One response on `rsp_status` and `rsp_data` (30_encoding.md R60, R66). -/
structure Response where
  status : Status
  data   : RspData
deriving DecidableEq, Repr

/-- What the host sends the block (60_exceptions.md R216): a command or the reset event. -/
inductive HostEvent
  | command (r : Request)
  | reset
deriving DecidableEq, Repr

/-- The block and its ports. -/
structure State where
  /-- the build parameters, written by nothing (00_scope.md R5; DESIGN CHOICE to carry them here, safe, log 1) -/
  params      : Params
  /-- the packet register; `none` when the block holds no packet (10_state.md R20, R28; log 2) -/
  buf         : Option Packet
  /-- the input ports: the request being performed while `outstanding`, else what the host last drove (log 5) -/
  ports       : Request
  /-- a command has been presented and its response not yet returned (20_memory.md R52) -/
  outstanding : Bool
  /-- the output ports: the last command's response, `none` while none has been returned (log 4) -/
  response    : Option Response
  /-- the MODEL's own: the host's commands and resets still to come (20_memory.md R51; DESIGN CHOICE, safe, log 3) -/
  hostStream  : List HostEvent
deriving DecidableEq, Repr

/-- The packet-valid bit `valid` (10_state.md R21): the block holds a packet. -/
def State.valid (s : State) : Bool := s.buf.isSome

/-- Input ports that carry nothing (DESIGN CHOICE, unsafe: `exec` reads the load port; no `step` reads a port that the host
has not driven; log 5). -/
def Request.blank : Request := ⟨0, 0, Vector.replicate 48 0⟩

/-- The block of build `p` right after reset (10_state.md R28; 70_reset_and_hazards.md R230, R232): no packet, no
command outstanding, no response returned, nothing queued by the host. -/
def State.resetWith (p : Params) : State where
  params := p
  buf := none
  ports := Request.blank
  outstanding := false
  response := none
  hostStream := []

/-- The block after reset, built with the default parameters of 00_scope.md R5. -/
def State.reset : State := State.resetWith Params.default

/-- What has no step at all. No command raises one: the block has no trap (60_exceptions.md R207). -/
inductive Fault
  /-- The host presents a command while one is outstanding (70_reset_and_hazards.md R236; 93_implementation_defined.md I9
  `stuck`). Raised by `State.present` only; `step` never raises it. Safe: the model stops. -/
  | overlappingCommand
deriving DecidableEq, Repr

/-- What the model refuses. -/
inductive Refusal
  /-- The instruction has no meaning yet. Raised by `exec`'s unmodelled arms only; there is none. Safe. -/
  | notModelled (mnemonic : String)
  /-- The host resets the block during a command (70_reset_and_hazards.md R231; 93_implementation_defined.md I10
  `refuse`). Raised by `State.applyReset` only; `step` never raises it. Safe: the model stops. -/
  | resetDuringCommand
deriving DecidableEq, Repr

end Sys2Proof.Machine
end

