-- ==== Sys2Proof/Machine/Ops.lean ====
section
/-! DEFINITION. The named operations over the packet register (00_scope.md R8) and over the ports: how a command ends
(00_scope.md R10), the shared check for a held packet (60_exceptions.md R203), and the host's two operations
(60_exceptions.md R216). The block has no trap to take and none to return from (60_exceptions.md R207): `raise` is what an
error is here. -/

namespace Sys2Proof.Machine

/-- The three outcomes of a step, over this machine. -/
abbrev StepResult := Host.Outcome State Fault Refusal

/-- `buf[i]` (00_scope.md R8). -/
def byteAt (p : Packet) (i : Nat) (h : i < 48) : Byte := p[i]

/-- `buf[i] <- v` (00_scope.md R8). -/
def writeByte (p : Packet) (i : Nat) (v : Byte) (h : i < 48) : Packet := p.set i v h

/-- `MemRead(a, n)`: the big-endian unsigned value of `buf[a] .. buf[a+n-1]` (00_scope.md R8; 20_memory.md R44). -/
def memRead (p : Packet) (a : Nat) : (n : Nat) → a + n ≤ 48 → Nat
  | 0, _ => 0
  | n + 1, h => memRead p a n (by omega) * 256 + (byteAt p (a + n) (by omega)).toNat

/-- `MemWrite(a, n, v)`: `buf[a+k] <- v[8(n-1-k)+7 : 8(n-1-k)]` (00_scope.md R8). -/
def memWrite (p : Packet) (a : Nat) : (n : Nat) → Nat → a + n ≤ 48 → Packet
  | 0, _, _ => p
  | n + 1, v, h => writeByte (memWrite p a n (v / 256) (by omega)) (a + n) (BitVec.ofNat 8 v) (by omega)

/-- The numeric code on `rsp_status[2:0]` (60_exceptions.md R200). -/
def Status.code : Status → BitVec 3
  | .ok => 0
  | .configError => 1
  | .truncated => 2
  | .noPacket => 3
  | .illegal => 4

/-- The state with the command's response on the output ports and the transaction ended. -/
def State.respond (s : State) (st : Status) (data : RspData) : State :=
  { s with outstanding := false, response := some ⟨st, data⟩ }

/-- The state with the packet register holding `p` (and so `valid = 1`, 10_state.md R21). -/
def State.setBuf (s : State) (p : Packet) : State := { s with buf := some p }

/-- `return`: the command ends with status OK and its packed result (00_scope.md R10; 60_exceptions.md R204). -/
def returnOk (data : RspData) (s : State) : StepResult := .next (s.respond .ok data)

/-- `raise <Status>`: the command ends with that status, result data 0, and no change to the block (00_scope.md R10). -/
def raise (st : Status) (s : State) : StepResult := .next (s.respond st 0)

/-- `if valid = 0: raise NO_PACKET`, before anything else a command does (60_exceptions.md R203). -/
def withPacket (s : State) (body : Packet → StepResult) : StepResult :=
  match s.buf with
  | none => raise .noPacket s
  | some p => body p

/-- `rsp_status`, once a response is there (30_encoding.md R60). -/
def State.rspStatus (s : State) : Option (BitVec 3) := s.response.map fun r => r.status.code

/-- `rsp_data`, once a response is there (30_encoding.md R60). -/
def State.rspData (s : State) : Option RspData := s.response.map fun r => r.data

/-- The host presents a command (60_exceptions.md R216). While one is outstanding a second has no step
(20_memory.md R52; 70_reset_and_hazards.md R236). -/
def State.present (r : Request) (s : State) : StepResult :=
  if s.outstanding then .fault .overlappingCommand
  else .next { s with ports := r, outstanding := true, response := none }

/-- The reset event (70_reset_and_hazards.md R230): `valid <- 0`, `buf` has no value, the parameters stay. It is taken only
between commands (R231). The block returns nothing for it (60_exceptions.md R216), so no response stands after it (log 4). -/
def State.applyReset (s : State) : StepResult :=
  if s.outstanding then .refused .resetDuringCommand
  else .next { s with buf := none, response := none }

/-- With no command outstanding the host's next event is taken; with none to come the block waits
(70_reset_and_hazards.md R230; log 8). -/
def hostTurn (s : State) : StepResult :=
  match s.hostStream with
  | [] => .next s
  | .command r :: rest => State.present r { s with hostStream := rest }
  | .reset :: rest => State.applyReset { s with hostStream := rest }

/-- The word of the outstanding command (30_encoding.md R61). -/
def fetchWord (s : State) : CmdWord := s.ports.cmd

/-- An illegal word's command (60_exceptions.md R205): status ILLEGAL, whatever `valid` is. -/
def answerIllegal (s : State) : StepResult := raise .illegal s

end Sys2Proof.Machine
end

