-- ==== Sys2Proof/Machine/Operands.lean ====
section
/-! DEFINITION. Operands (30_encoding.md R63) and the packing of results on `rsp_data` (R65). -/

namespace Sys2Proof.Machine

/-- A setter's operand as a byte; exact for every operand a word can carry (30_encoding.md R63(a)). -/
def operandByte (v : Nat) : Byte := BitVec.ofNat 8 v

/-- DESERIALIZE's operand (30_encoding.md R63(c)): the 48 bytes on the load port when `ld_len` is 48. With any other
length there is none, and `ld_data` is not read (46_transfer.md R185). -/
def loadOperand (s : State) : Option Packet :=
  if s.ports.ldLen = 48 then some s.ports.ldData else none

/-- `rsp_data` of kind none (30_encoding.md R65). -/
def packNone : RspData := 0

/-- `rsp_data` of kind u8: the value, zero-extended (30_encoding.md R65). -/
def packU8 (v : Byte) : RspData := v.setWidth 384

/-- `rsp_data` of kind duration: the 64-bit two's-complement count in bits 63:0, the rest 0 (30_encoding.md R65). -/
def packDuration (d : Nanos) : RspData := d.setWidth 384

/-- `rsp_data` of kind timestamp: the 64-bit unsigned count in bits 63:0, the rest 0 (30_encoding.md R65). -/
def packTimestamp (t : Nanos) : RspData := t.setWidth 384

/-- `rsp_data` of kind bytes4: four bytes, the first most significant, in bits 31:0 (30_encoding.md R65). -/
def packBytes4 (p : Packet) (a : Nat) (h : a + 4 ≤ 48) : RspData := BitVec.ofNat 384 (memRead p a 4 h)

/-- `rsp_data` of kind bytes48: byte 0 in bits 383:376, byte 47 in bits 7:0 (30_encoding.md R65). -/
def packBytes48 (p : Packet) : RspData := BitVec.ofNat 384 (memRead p 0 48 (by decide))

/-- The 48 bytes of a bytes48 result, as a host reads them off `rsp_data` (30_encoding.md R65). -/
def unpackBytes48 (d : RspData) : Packet := Vector.ofFn fun i => d.extractLsb' (376 - 8 * i.val) 8

end Sys2Proof.Machine
end

