-- ==== Sys2Proof/Machine/Flags.lean ====
section
/-! DEFINITION. The block has no status flags or condition codes (10_state.md R25). The flags it has are the LI, VN and
Mode sub-fields of byte 0: this file is their accessor (41_bitfield_flags.md R90 to R92; 20_memory.md R41). -/

namespace Sys2Proof.Machine

/-- The three sub-fields of byte 0 (20_memory.md R41). -/
inductive FlagField
  | leap
  | version
  | mode
deriving DecidableEq, Repr

/-- The sub-field's bits in byte 0 (41_bitfield_flags.md R90). -/
def FlagField.mask : FlagField → Byte
  | .leap => 0xC0
  | .version => 0x38
  | .mode => 0x07

/-- The position of the sub-field's lowest bit (41_bitfield_flags.md R90). -/
def FlagField.shift : FlagField → Nat
  | .leap => 6
  | .version => 3
  | .mode => 0

/-- The largest legal value (41_bitfield_flags.md R90). -/
def FlagField.maximum : FlagField → Nat
  | .leap => 3
  | .version => 7
  | .mode => 7

/-- A getter masks and shifts (20_memory.md R41; 41_bitfield_flags.md R94, R96, R98). -/
def readSubfield (f : FlagField) (b : Byte) : Byte := (b &&& f.mask) >>> f.shift

/-- A setter's new byte 0 for an in-range value (41_bitfield_flags.md R92), by `P_FLAG_WRITE`. -/
def writeSubfield (mode : FlagWrite) (f : FlagField) (v : Nat) (b : Byte) : Byte :=
  match mode with
  | .or => b ||| (operandByte v <<< f.shift)
  | .assign => (b &&& ~~~f.mask) ||| (operandByte v <<< f.shift)

/-- What the three setters share (41_bitfield_flags.md R91 to R93): a held packet, then the range check, then the write. -/
def setSubfield (f : FlagField) (v : Nat) (s : State) : StepResult :=
  withPacket s fun p =>
    if f.maximum < v then raise .configError s
    else
      returnOk packNone
        (s.setBuf (writeByte p 0 (writeSubfield s.params.flagWrite f v (byteAt p 0 (by decide))) (by decide)))

/-- What the three byte-0 getters share (41_bitfield_flags.md R94). -/
def getSubfield (f : FlagField) (s : State) : StepResult :=
  withPacket s fun p => returnOk (packU8 (readSubfield f (byteAt p 0 (by decide)))) s

end Sys2Proof.Machine
end

