-- ==== Sys2Proof/Machine/BitField.lean ====
section
/-! DEFINITION. The byte-0 bit-field flag accessor's six commands (41_bitfield_flags.md). -/

namespace Sys2Proof.Machine

/-- SET_LEAP (41_bitfield_flags.md R93). -/
def execSetLeap (v : Nat) (s : State) : StepResult := setSubfield .leap v s

/-- GET_LEAP (41_bitfield_flags.md R94). -/
def execGetLeap (s : State) : StepResult := getSubfield .leap s

/-- SET_VERSION (41_bitfield_flags.md R95). -/
def execSetVersion (v : Nat) (s : State) : StepResult := setSubfield .version v s

/-- GET_VERSION (41_bitfield_flags.md R96). -/
def execGetVersion (s : State) : StepResult := getSubfield .version s

/-- SET_MODE (41_bitfield_flags.md R97). -/
def execSetMode (v : Nat) (s : State) : StepResult := setSubfield .mode v s

/-- GET_MODE (41_bitfield_flags.md R98). -/
def execGetMode (s : State) : StepResult := getSubfield .mode s

end Sys2Proof.Machine
end

