-- ==== Sys2Proof/Machine/Convert.lean ====
section
/-! DEFINITION. The three fixed-point converters, pure functions to a 64-bit nanosecond count: exact integers first, one
narrowing at the end (00_scope.md R9). -/

namespace Sys2Proof.Machine

/-- `wrap64s(z)`: z modulo 2^64 in the range -2^63 .. 2^63-1 (00_scope.md R9). -/
def wrap64s (z : Int) : Int := z.bmod (2 ^ 64)

/-- `LOG2DUR(b)` (42_byte_fields_log2.md R111): one second, shifted by the signed exponent. -/
def log2dur (b : Byte) : Nanos :=
  let n := b.toInt
  if 0 < n then BitVec.ofInt 64 (wrap64s (nsPerSecond * 2 ^ n.toNat))
  else if n < 0 then BitVec.ofNat 64 (nsPerSecond / 2 ^ (-n).toNat)
  else BitVec.ofNat 64 nsPerSecond

/-- The elapsed nanoseconds of a 16.16 word `w` (43_duration_16_16.md R130): signed seconds, unsigned fraction, the shift
on the fraction product only. -/
def fx16Elapsed (w : BitVec 32) : Int :=
  (w.extractLsb' 16 16).toInt * nsPerSecond + ((w.extractLsb' 0 16).toNat * nsPerSecond / 2 ^ 16 : Nat)

/-- `FX16(w)` (43_duration_16_16.md R130), by `P_ROOT_SCALE`. -/
def fx16 (scale : RootScale) (w : BitVec 32) : Nanos :=
  match scale with
  | .rfc => BitVec.ofInt 64 (fx16Elapsed w)
  | .legacy => BitVec.ofInt 64 (wrap64s (fx16Elapsed w * nsPerSecond))

/-- `TS32(sec, frac)` (44_timestamp_32_32.md R150): the shift on the fraction product only. -/
def ts32 (sec frac : BitVec 32) : Nanos :=
  BitVec.ofNat 64 (sec.toNat * nsPerSecond + frac.toNat * nsPerSecond / 2 ^ 32)

/-- The 16.16 field at offset `a` as a duration (43_duration_16_16.md R132, R133). -/
def getDuration16 (a : Nat) (h : a + 4 ≤ 48) (s : State) : StepResult :=
  withPacket s fun p =>
    returnOk (packDuration (fx16 s.params.rootScale (BitVec.ofNat 32 (memRead p a 4 h)))) s

/-- The 32.32 field at offset `a` as a timestamp (44_timestamp_32_32.md R152 to R155). -/
def getTimestamp (a : Nat) (h : a + 8 ≤ 48) (s : State) : StepResult :=
  withPacket s fun p =>
    returnOk
      (packTimestamp
        (ts32 (BitVec.ofNat 32 (memRead p a 4 (by omega))) (BitVec.ofNat 32 (memRead p (a + 4) 4 (by omega))))) s

/-- The log2 exponent at offset `a` as a duration (42_byte_fields_log2.md R112, R113). -/
def getLog2Duration (a : Nat) (h : a < 48) (s : State) : StepResult :=
  withPacket s fun p => returnOk (packDuration (log2dur (byteAt p a h))) s

end Sys2Proof.Machine
end

