-- ==== Sys2Proof/Machine/ByteFields.lean ====
section
/-! DEFINITION. The single-byte fields: stratum raw, poll interval and precision through the log2 converter
(42_byte_fields_log2.md). -/

namespace Sys2Proof.Machine

/-- GET_STRATUM (42_byte_fields_log2.md R110): byte 1, unchanged. -/
def execGetStratum (s : State) : StepResult :=
  withPacket s fun p => returnOk (packU8 (byteAt p 1 (by decide))) s

/-- GET_POLL (42_byte_fields_log2.md R112): byte 2. -/
def execGetPoll (s : State) : StepResult := getLog2Duration 2 (by decide) s

/-- GET_PRECISION (42_byte_fields_log2.md R113): byte 3. -/
def execGetPrecision (s : State) : StepResult := getLog2Duration 3 (by decide) s

end Sys2Proof.Machine
end

