-- ==== Sys2Proof/Machine/Construction.lean ====
section
/-! DEFINITION. Packet construction (40_construction.md). -/

namespace Sys2Proof.Machine

/-- The 48 zero octets a construction starts from (40_construction.md R80). -/
def zeroPacket : Packet := Vector.replicate 48 0

/-- Byte 0 of a new packet: leap 0, version 3, mode 3, ORed into a zero byte as the setters do (40_construction.md R80). -/
def defaultByte0 : Byte :=
  writeSubfield .or .mode 3 (writeSubfield .or .version 3 (writeSubfield .or .leap 0 0))

/-- The default client request (40_construction.md R80). -/
def defaultPacket : Packet := writeByte zeroPacket 0 defaultByte0 (by decide)

/-- CREATE (40_construction.md R80): legal whatever `valid` is; it reads nothing of the packet. -/
def execCreate (s : State) : StepResult := returnOk packNone (s.setBuf defaultPacket)

end Sys2Proof.Machine
end

