-- ==== Sys2Proof/Machine/ReferenceId.lean ====
section
/-! DEFINITION. The reference clock ID (45_reference_id.md). -/

namespace Sys2Proof.Machine

/-- GET_REFID (45_reference_id.md R170): bytes 12-15, unchanged and in packet order. -/
def execGetRefId (s : State) : StepResult :=
  withPacket s fun p => returnOk (packBytes4 p 12 (by decide)) s

end Sys2Proof.Machine
end

