-- ==== Sys2Proof/Machine/RootDuration.lean ====
section
/-! DEFINITION. Root delay and root dispersion through the 16.16 converter (43_duration_16_16.md). -/

namespace Sys2Proof.Machine

/-- GET_ROOT_DELAY (43_duration_16_16.md R132): bytes 4-7. -/
def execGetRootDelay (s : State) : StepResult := getDuration16 4 (by decide) s

/-- GET_ROOT_DISPERSION (43_duration_16_16.md R133): bytes 8-11. -/
def execGetRootDispersion (s : State) : StepResult := getDuration16 8 (by decide) s

end Sys2Proof.Machine
end

