-- ==== Sys2Proof/Machine/Timestamps.lean ====
section
/-! DEFINITION. The four timestamps through the 32.32 converter (44_timestamp_32_32.md). -/

namespace Sys2Proof.Machine

/-- GET_REF_TS (44_timestamp_32_32.md R152): bytes 16-23. -/
def execGetRefTs (s : State) : StepResult := getTimestamp 16 (by decide) s

/-- GET_ORIGIN_TS (44_timestamp_32_32.md R153): bytes 24-31. -/
def execGetOriginTs (s : State) : StepResult := getTimestamp 24 (by decide) s

/-- GET_RECEIVE_TS (44_timestamp_32_32.md R154): bytes 32-39. -/
def execGetReceiveTs (s : State) : StepResult := getTimestamp 32 (by decide) s

/-- GET_TRANSMIT_TS (44_timestamp_32_32.md R155): bytes 40-47. -/
def execGetTransmitTs (s : State) : StepResult := getTimestamp 40 (by decide) s

end Sys2Proof.Machine
end

