-- ==== Sys2Proof/Machine/Transfer.lean ====
section
/-! DEFINITION. Packet transfer (46_transfer.md). -/

namespace Sys2Proof.Machine

/-- SERIALIZE (46_transfer.md R182): the 48 bytes, whatever they hold. -/
def execSerialize (s : State) : StepResult := withPacket s fun p => returnOk (packBytes48 p) s

/-- DESERIALIZE (46_transfer.md R185): exactly 48 received bytes replace the packet; it needs no packet before it. -/
def execDeserialize (s : State) : StepResult :=
  match loadOperand s with
  | none => raise .truncated s
  | some p => returnOk packNone (s.setBuf p)

end Sys2Proof.Machine
end

