-- ==== Sys2Proof/Machine/Dispatch.lean ====
section
/-! DEFINITION. One arm per command of 30_encoding.md R64. -/

namespace Sys2Proof.Machine

/-- What one legal command does to the block and its response ports. -/
def exec (i : Instr) (s : State) : Host.Outcome State Fault Refusal :=
  match i with
  | .create => Sys2Proof.Machine.execCreate s
  | .setLeap v => Sys2Proof.Machine.execSetLeap v s
  | .setVersion v => Sys2Proof.Machine.execSetVersion v s
  | .setMode v => Sys2Proof.Machine.execSetMode v s
  | .getLeap => Sys2Proof.Machine.execGetLeap s
  | .getVersion => Sys2Proof.Machine.execGetVersion s
  | .getMode => Sys2Proof.Machine.execGetMode s
  | .getStratum => Sys2Proof.Machine.execGetStratum s
  | .getPoll => Sys2Proof.Machine.execGetPoll s
  | .getPrecision => Sys2Proof.Machine.execGetPrecision s
  | .getRootDelay => Sys2Proof.Machine.execGetRootDelay s
  | .getRootDispersion => Sys2Proof.Machine.execGetRootDispersion s
  | .getRefId => Sys2Proof.Machine.execGetRefId s
  | .getRefTs => Sys2Proof.Machine.execGetRefTs s
  | .getOriginTs => Sys2Proof.Machine.execGetOriginTs s
  | .getReceiveTs => Sys2Proof.Machine.execGetReceiveTs s
  | .getTransmitTs => Sys2Proof.Machine.execGetTransmitTs s
  | .serialize => Sys2Proof.Machine.execSerialize s
  | .deserialize => Sys2Proof.Machine.execDeserialize s

end Sys2Proof.Machine
end

