-- ==== Sys2Proof/Machine/Step.lean ====
section
/-! DEFINITION. One step: an outstanding command is performed whole, as one indivisible step (20_memory.md R48); with none
outstanding the host's next event is taken. -/

namespace Sys2Proof.Machine

/-- One step of the block and its host. -/
def step (s : State) : Host.Outcome State Fault Refusal :=
  match s.outstanding with
  | false => hostTurn s
  | true =>
    match decode (fetchWord s) with
    | .ok i => exec i s
    | .error _ => answerIllegal s

/-- The state with the command word `w` (numbered as opcode_table.json numbers it; bits from `nbits` up are 0) presented on
the command port, so that the next step performs it (log 11). What stands on the load port stays. -/
def State.withFetchWord (s : State) (nbits w : Nat) : State :=
  { s with
    ports := { s.ports with cmd := BitVec.ofNat 16 (w % 2 ^ nbits) }
    outstanding := true
    response := none }

end Sys2Proof.Machine
end

