-- ==== Sys2Proof/Machine/Assembler.lean ====
section
/-! DEFINITION. The spec's assembler syntax (30_encoding.md R70, R71): one line of text to one request on the ports. Text is
a list of characters, one line each. There are no pseudo-instructions. -/

namespace Sys2Proof.Machine

/-- The formats of 30_encoding.md R62. -/
inductive Format
  | noOperand
  | immediate
  | data
deriving DecidableEq, Repr

/-- The format of each command (30_encoding.md R64). -/
def formatOf : Instr → Format
  | .setLeap _ | .setVersion _ | .setMode _ => .immediate
  | .deserialize => .data
  | .create | .getLeap | .getVersion | .getMode | .getStratum | .getPoll | .getPrecision | .getRootDelay
  | .getRootDispersion | .getRefId | .getRefTs | .getOriginTs | .getReceiveTs | .getTransmitTs | .serialize => .noOperand

/-- The mnemonic of a command (30_encoding.md R64, R70). -/
def mnemonic : Instr → List Char
  | .create => ['C', 'R', 'E', 'A', 'T', 'E']
  | .setLeap _ => ['S', 'E', 'T', '_', 'L', 'E', 'A', 'P']
  | .setVersion _ => ['S', 'E', 'T', '_', 'V', 'E', 'R', 'S', 'I', 'O', 'N']
  | .setMode _ => ['S', 'E', 'T', '_', 'M', 'O', 'D', 'E']
  | .getLeap => ['G', 'E', 'T', '_', 'L', 'E', 'A', 'P']
  | .getVersion => ['G', 'E', 'T', '_', 'V', 'E', 'R', 'S', 'I', 'O', 'N']
  | .getMode => ['G', 'E', 'T', '_', 'M', 'O', 'D', 'E']
  | .getStratum => ['G', 'E', 'T', '_', 'S', 'T', 'R', 'A', 'T', 'U', 'M']
  | .getPoll => ['G', 'E', 'T', '_', 'P', 'O', 'L', 'L']
  | .getPrecision => ['G', 'E', 'T', '_', 'P', 'R', 'E', 'C', 'I', 'S', 'I', 'O', 'N']
  | .getRootDelay => ['G', 'E', 'T', '_', 'R', 'O', 'O', 'T', '_', 'D', 'E', 'L', 'A', 'Y']
  | .getRootDispersion => ['G', 'E', 'T', '_', 'R', 'O', 'O', 'T', '_', 'D', 'I', 'S', 'P', 'E', 'R', 'S', 'I', 'O', 'N']
  | .getRefId => ['G', 'E', 'T', '_', 'R', 'E', 'F', 'I', 'D']
  | .getRefTs => ['G', 'E', 'T', '_', 'R', 'E', 'F', '_', 'T', 'S']
  | .getOriginTs => ['G', 'E', 'T', '_', 'O', 'R', 'I', 'G', 'I', 'N', '_', 'T', 'S']
  | .getReceiveTs => ['G', 'E', 'T', '_', 'R', 'E', 'C', 'E', 'I', 'V', 'E', '_', 'T', 'S']
  | .getTransmitTs => ['G', 'E', 'T', '_', 'T', 'R', 'A', 'N', 'S', 'M', 'I', 'T', '_', 'T', 'S']
  | .serialize => ['S', 'E', 'R', 'I', 'A', 'L', 'I', 'Z', 'E']
  | .deserialize => ['D', 'E', 'S', 'E', 'R', 'I', 'A', 'L', 'I', 'Z', 'E']

/-- The command with immediate `v` in place of its own, where it has one. -/
def withImmediate (v : Nat) : Instr → Instr
  | .setLeap _ => .setLeap v
  | .setVersion _ => .setVersion v
  | .setMode _ => .setMode v
  | i => i

/-- One command for each mnemonic. -/
def templates : List Instr :=
  [.create, .setLeap 0, .setVersion 0, .setMode 0, .getLeap, .getVersion, .getMode, .getStratum, .getPoll, .getPrecision,
   .getRootDelay, .getRootDispersion, .getRefId, .getRefTs, .getOriginTs, .getReceiveTs, .getTransmitTs, .serialize,
   .deserialize]

/-- Why a line does not assemble. -/
inductive AsmError
  | unknownMnemonic
  | badOperand
deriving DecidableEq, Repr

/-- `;` starts a comment to the end of the line (30_encoding.md R70(d)). -/
def stripComment (line : List Char) : List Char := line.takeWhile fun c => c ≠ ';'

/-- The pieces of a line between blanks; two blanks in a row leave an empty piece between them. -/
def pieces : List Char → List (List Char)
  | [] => [[]]
  | c :: cs =>
    if c = ' ' ∨ c = '\t' then [] :: pieces cs
    else
      match pieces cs with
      | w :: ws => (c :: w) :: ws
      | [] => [[c]]

/-- The words of a line. -/
def tokens (line : List Char) : List (List Char) := (pieces (stripComment line)).filter fun w => !w.isEmpty

/-- A hexadecimal digit's value. -/
def hexDigit (c : Char) : Option Nat :=
  if 48 ≤ c.toNat ∧ c.toNat ≤ 57 then some (c.toNat - 48)
  else if 97 ≤ c.toNat ∧ c.toNat ≤ 102 then some (c.toNat - 87)
  else if 65 ≤ c.toNat ∧ c.toNat ≤ 70 then some (c.toNat - 55)
  else none

/-- A decimal digit's value. -/
def decDigit (c : Char) : Option Nat :=
  if 48 ≤ c.toNat ∧ c.toNat ≤ 57 then some (c.toNat - 48) else none

/-- The number the digits spell in this base, above the value `acc` of the digits before them. -/
def parseDigits (base : Nat) (digit : Char → Option Nat) : Nat → List Char → Option Nat
  | acc, [] => some acc
  | acc, c :: cs =>
    match digit c with
    | some d => parseDigits base digit (acc * base + d) cs
    | none => none

/-- An immediate: decimal (`4`) or hexadecimal (`0x04`) (30_encoding.md R70(b)). -/
def parseNumber : List Char → Option Nat
  | [] => none
  | '0' :: 'x' :: c :: cs => parseDigits 16 hexDigit 0 (c :: cs)
  | c :: cs => parseDigits 10 decDigit 0 (c :: cs)

/-- Hexadecimal pairs, one byte each (30_encoding.md R70(c)). -/
def parsePairs : List Char → Option (List Byte)
  | [] => some []
  | [_] => none
  | a :: b :: rest =>
    match hexDigit a, hexDigit b, parsePairs rest with
    | some x, some y, some bytes => some (BitVec.ofNat 8 (x * 16 + y) :: bytes)
    | _, _, _ => none

/-- The bytes of all the words, each a group of pairs (30_encoding.md R70(c) "optionally grouped"). -/
def parseBytes : List (List Char) → Option (List Byte)
  | [] => some []
  | w :: ws =>
    match parsePairs w, parseBytes ws with
    | some bs, some rest => some (bs ++ rest)
    | _, _ => none

/-- The listed bytes on the load port. Positions past the last are don't-care (30_encoding.md R60) and carry 0 (DESIGN
CHOICE, safe, log 6). -/
def loadPort (bytes : List Byte) : Packet := Vector.ofFn fun i => bytes.getD i.val 0

/-- The request of a format N or I command: the load port is ignored (30_encoding.md R69) and carries nothing. -/
def plainRequest (i : Instr) : Request := ⟨encode i, 0, loadPort []⟩

/-- The request of a DESERIALIZE line: the listed bytes on `ld_data`, their count on `ld_len` (30_encoding.md R70(c)). -/
def dataRequest (i : Instr) (bytes : List Byte) : Request := ⟨encode i, bytes.length, loadPort bytes⟩

/-- A mnemonic and its operand words (30_encoding.md R70(a), (b), (c)). -/
def assembleWords (word : List Char) (operands : List (List Char)) : Except AsmError Request :=
  match templates.find? fun i => mnemonic i = word with
  | none => .error .unknownMnemonic
  | some i =>
    match formatOf i, operands with
    | .noOperand, [] => .ok (plainRequest i)
    | .noOperand, _ :: _ => .error .badOperand
    | .immediate, [w] =>
      match parseNumber w with
      | some v => if v ≤ 255 then .ok (plainRequest (withImmediate v i)) else .error .badOperand
      | none => .error .badOperand
    | .immediate, _ => .error .badOperand
    | .data, ws =>
      match parseBytes ws with
      | some bytes => .ok (dataRequest i bytes)
      | none => .error .badOperand

/-- One line: a request, or nothing for a line that holds only blanks and a comment (30_encoding.md R70). -/
def assembleLine (line : List Char) : Except AsmError (Option Request) :=
  match tokens line with
  | [] => .ok none
  | m :: operands => (assembleWords m operands).map some

/-- A program: the host's commands, one a line, in order. -/
def assembleProgram : List (List Char) → Except AsmError (List HostEvent)
  | [] => .ok []
  | line :: lines =>
    match assembleLine line, assembleProgram lines with
    | .ok (some r), .ok rest => .ok (.command r :: rest)
    | .ok none, .ok rest => .ok rest
    | .error e, _ => .error e
    | _, .error e => .error e

/-- The two hexadecimal digits of a byte. -/
def hexPair (b : Byte) : List Char := [Nat.digitChar (b.toNat / 16), Nat.digitChar (b.toNat % 16)]

/-- A command as a line of text (30_encoding.md R70); `bytes` are the load port's, for DESERIALIZE. -/
def renderLine (i : Instr) (bytes : List Byte) : List Char :=
  match formatOf i with
  | .noOperand => mnemonic i
  | .immediate => mnemonic i ++ ' ' :: Nat.toDigits 10 i.immediate
  | .data => mnemonic i ++ bytes.flatMap fun b => ' ' :: hexPair b

end Sys2Proof.Machine
end

