-- ==== Sys2Proof/Safety.lean ====
section
/-! DEFINITION. The terms claims are stated in: what a well-behaved transaction is, what the host's stream means read one
event at a time, and names for groups of commands. -/

namespace Sys2Proof.Machine

/-- The state an outcome reaches, if it reaches one. -/
def nextOf : StepResult → Option State
  | .next s => some s
  | .fault _ => none
  | .refused _ => none

/-- A response as the spec packs it: data 0 with every status but OK (30_encoding.md R66). -/
abbrev Response.WellFormed (r : Response) : Prop := r.status ≠ .ok → r.data = 0

/-- What holds between any two steps. -/
structure State.Inv (s : State) : Prop where
  /-- an outstanding command has no response yet (20_memory.md R52; log 4) -/
  unanswered : s.outstanding = true → s.response = none
  /-- a response that is not OK carries no data (30_encoding.md R66) -/
  packed : ∀ r, s.response = some r → r.WellFormed
  /-- a command completes only with a packet held: CREATE and DESERIALIZE bring one, every other needs one (10_state.md R21);
  a reset drops the packet and, by log 4, the response with it -/
  completed : ∀ r, s.response = some r → r.status = .ok → s.valid = true
  /-- CONFIG_ERROR comes after the check for a packet (60_exceptions.md R206); across a reset by log 4, as above -/
  checked : ∀ r, s.response = some r → r.status = .configError → s.valid = true
  /-- NO_PACKET is answered only while none is held, and brings none (60_exceptions.md R203) -/
  empty : ∀ r, s.response = some r → r.status = .noPacket → s.valid = false

/-- One host event in full: a reset, or a command from its presentation to its response (20_memory.md R48). -/
def serveEvent (e : HostEvent) (s : State) : StepResult :=
  match e with
  | .reset => .next { s with buf := none, response := none }
  | .command r =>
    match decode r.cmd with
    | .ok i => exec i { s with ports := r, outstanding := true, response := none }
    | .error _ => .next { s with ports := r, outstanding := false, response := some ⟨.illegal, 0⟩ }

/-- Host events in full, one after the other in the host's order (20_memory.md R51). -/
def serveAll : List HostEvent → State → StepResult
  | [], s => .next s
  | e :: rest, s =>
    match serveEvent e s with
    | .next t => serveAll rest t
    | .fault f => .fault f
    | .refused r => .refused r

/-- Commands performed one after the other, with nothing between. -/
def execAll : List Instr → State → StepResult
  | [], s => .next s
  | i :: rest, s =>
    match exec i s with
    | .next t => execAll rest t
    | .fault f => .fault f
    | .refused r => .refused r

/-- How many steps a host event takes: a command is presented, then performed; a reset is one. -/
def stepsOf : HostEvent → Nat
  | .command _ => 2
  | .reset => 1

/-- The commands that read the packet and write nothing of it: the 13 getters and SERIALIZE (20_memory.md R47). -/
def readers : List Instr :=
  [.getLeap, .getVersion, .getMode, .getStratum, .getPoll, .getPrecision, .getRootDelay, .getRootDispersion, .getRefId,
   .getRefTs, .getOriginTs, .getReceiveTs, .getTransmitTs, .serialize]

/-- The setter of a sub-field (41_bitfield_flags.md R93, R95, R97). -/
def setterOf : FlagField → Nat → Instr
  | .leap, v => .setLeap v
  | .version, v => .setVersion v
  | .mode, v => .setMode v

/-- The getter of a sub-field (41_bitfield_flags.md R94, R96, R98). -/
def getterOf : FlagField → Instr
  | .leap => .getLeap
  | .version => .getVersion
  | .mode => .getMode

/-- The offset of the first byte a command reads of the packet, and how many bytes it reads (20_memory.md R47). -/
def bytesRead : Instr → Nat × Nat
  | .create => (0, 0)
  | .setLeap _ | .setVersion _ | .setMode _ => (0, 1)
  | .getLeap | .getVersion | .getMode => (0, 1)
  | .getStratum => (1, 1)
  | .getPoll => (2, 1)
  | .getPrecision => (3, 1)
  | .getRootDelay => (4, 4)
  | .getRootDispersion => (8, 4)
  | .getRefId => (12, 4)
  | .getRefTs => (16, 8)
  | .getOriginTs => (24, 8)
  | .getReceiveTs => (32, 8)
  | .getTransmitTs => (40, 8)
  | .serialize => (0, 48)
  | .deserialize => (0, 0)

/-- The value of the four bytes at offset `a`, the first most significant (20_memory.md R44), written out. -/
def fieldWord (p : Packet) (a : Nat) (h : a + 4 ≤ 48) : Nat :=
  p[a].toNat * 2 ^ 24 + p[a + 1].toNat * 2 ^ 16 + p[a + 2].toNat * 2 ^ 8 + p[a + 3].toNat

/-- The status a command presented as word `w` ends with, by the checks of 60_exceptions.md R206 in their order, read off
the word's two fields alone. -/
def expectedStatus (w : CmdWord) (valid : Bool) (ldLen : Nat) : Status :=
  let opcode := w.toNat / 256
  let imm8 := w.toNat % 256
  if ¬ (opcode ∈ [0x10, 0x11, 0x12] ∨
      (opcode ∈ [0x01, 0x20, 0x21, 0x22, 0x23, 0x24, 0x25, 0x26, 0x27, 0x28, 0x29, 0x2A, 0x2B, 0x2C, 0x30, 0x31]
        ∧ imm8 = 0)) then .illegal
  else if valid = false ∧ opcode ≠ 0x01 ∧ opcode ≠ 0x31 then .noPacket
  else if (opcode = 0x10 ∧ 3 < imm8) ∨ (opcode = 0x11 ∧ 7 < imm8) ∨ (opcode = 0x12 ∧ 7 < imm8) then .configError
  else if opcode = 0x31 ∧ ldLen ≠ 48 then .truncated
  else .ok

end Sys2Proof.Machine
end

