-- ==== Sys2Proof/Certificates/Slice0/Obligations.lean ====
section
/-! DEFINITION. The statements about the model. Each docstring names the rule of spec/ it formalises. A rule the spec marks
`[derived: …]` is the spec's own inference, and a statement of it says so. -/

open Sys2Proof Sys2Proof.Machine

/-! ### Encoding -/

/-- 30_encoding.md R61 to R64: no bit of an encoding is dropped, for every command and every immediate. -/
def Obligations.DecodeOfEncodeIsIdentity : Prop :=
  ∀ i : Instr, i.WellFormed → decode (encode i) = .ok i

/-- 30_encoding.md R61 to R64: each legal word has one meaning, and that command's encoding is the word. -/
def Obligations.EncodeOfDecodeIsIdentity : Prop :=
  ∀ (w : CmdWord) (i : Instr), decode w = .ok i → i.WellFormed ∧ encode i = w

/-- 60_exceptions.md R205 with the legal words of 30_encoding.md R67: which words are legal, and what every other word's
command does, whatever `valid` is. -/
def Obligations.LegalWordsAreTheTablesAndOthersAnswerIllegal : Prop :=
  (∀ w : CmdWord, (∃ i, decode w = .ok i) ↔
      (w.toNat / 256 ∈ [0x10, 0x11, 0x12] ∨
        (w.toNat / 256 ∈ [0x01, 0x20, 0x21, 0x22, 0x23, 0x24, 0x25, 0x26, 0x27, 0x28, 0x29, 0x2A, 0x2B, 0x2C, 0x30, 0x31]
          ∧ w.toNat % 256 = 0))) ∧
  (∀ s : State, s.outstanding = true → (¬ ∃ i, decode s.ports.cmd = .ok i) →
      step s = .next { s with outstanding := false, response := some ⟨.illegal, 0⟩ })

/-- 30_encoding.md R64: nine legal words of the opcode map, written out. A sanity statement. The last two are illegal words
(R67); the names they are rejected under are the model's (log 13). -/
def Obligations.DecodeReadsWordsOfTheOpcodeMap : Prop :=
  decode 0b0000000100000000#16 = .ok .create ∧
  decode 0b0001000000000011#16 = .ok (.setLeap 3) ∧
  decode 0b0001000111111111#16 = .ok (.setVersion 255) ∧
  decode 0b0010001000000000#16 = .ok .getMode ∧
  decode 0b0010010000000000#16 = .ok .getPoll ∧
  decode 0b0010011000000000#16 = .ok .getRootDelay ∧
  decode 0b0010100000000000#16 = .ok .getRefId ∧
  decode 0b0010110000000000#16 = .ok .getTransmitTs ∧
  decode 0b0011000100000000#16 = .ok .deserialize ∧
  decode 0b0010000000000001#16 = .error (.nonzeroImmediate 0x20 1) ∧
  decode 0b0001001100000000#16 = .error (.undefinedOpcode 0x13)

/-- 30_encoding.md R70: a command written as a line of text assembles to that command's word, with a DESERIALIZE line's
bytes and their count on the load port. How a command is written as a line (`renderLine`) is the model's own. -/
def Obligations.AssembledLineCarriesTheEncodedCommand : Prop :=
  ∀ (i : Instr) (bytes : List Byte), i.WellFormed →
    ∃ r, assembleLine (renderLine i bytes) = .ok (some r) ∧ r.cmd = encode i ∧
      (i = .deserialize → r.ldLen = bytes.length ∧
        ∀ (k : Nat) (h : k < 48) (hb : k < bytes.length), r.ldData[k] = bytes[k])

/-! ### The transaction, the host's events and reset -/

/-- A step performs the command that the outstanding word decodes to (30_encoding.md R60, R61). -/
def Obligations.StepPerformsTheOutstandingCommand : Prop :=
  ∀ (s : State) (i : Instr), s.outstanding = true → decode s.ports.cmd = .ok i → step s = exec i s

/-- With no command outstanding a step takes the host's next event, and with none to come the block waits (70 R230). The
stream, and that presenting a command or resetting leaves no response standing, are the model's choice (logs 3, 4, 8). -/
def Obligations.IdleStepTakesTheHostsNextEvent : Prop :=
  ∀ s : State, s.outstanding = false →
    (s.hostStream = [] → step s = .next s) ∧
    (∀ r rest, s.hostStream = .command r :: rest →
      step s = .next { s with hostStream := rest, ports := r, outstanding := true, response := none }) ∧
    (∀ rest, s.hostStream = .reset :: rest →
      step s = .next { s with hostStream := rest, buf := none, response := none })

/-- 70_reset_and_hazards.md R236 and 20_memory.md R52: a second command has no step while one is outstanding; the one step
there is completes the first and leaves what the host has queued waiting. That the second request's outcome is a fault, and
its name, are the model's (log 9, DEDUCED); the queue is the model's choice (log 3, DESIGN CHOICE). -/
def Obligations.OverlappingCommandIsStuckUntilTheFirstCompletes : Prop :=
  ∀ (s : State) (r : Request), s.outstanding = true →
    State.present r s = .fault .overlappingCommand ∧
    ∃ t, step s = .next t ∧ t.outstanding = false ∧ t.response.isSome = true ∧ t.hostStream = s.hostStream ∧
      ∃ u, State.present r t = .next u ∧ u.outstanding = true ∧ u.ports = r

/-- 70_reset_and_hazards.md R230, R231, R232: what a reset leaves, whatever was held before, and that it is taken only
between commands. That a reset during a command is a refusal, and its name, are the model's (log 10, DEDUCED); that the build
and the host's queue stand in the state, where a reset leaves them, is the model's choice (logs 1 and 3, DESIGN CHOICE). -/
def Obligations.ResetBetweenCommandsLeavesNoPacket : Prop :=
  (∀ s : State, s.outstanding = false →
    ∃ t, State.applyReset s = .next t ∧ t.valid = false ∧ t.buf = none ∧ t.params = s.params ∧
      t.hostStream = s.hostStream ∧ t.outstanding = false) ∧
  (∀ s : State, s.outstanding = true → State.applyReset s = .refused .resetDuringCommand) ∧
  (∀ p : Params, (State.resetWith p).valid = false ∧ (State.resetWith p).buf = none ∧ (State.resetWith p).params = p)

/-- 70_reset_and_hazards.md R230: "the first command that can succeed is CREATE or DESERIALIZE", and each does. The queue the
command comes from is the model's choice (log 3). -/
def Obligations.FirstSuccessAfterResetIsCreateOrDeserialize : Prop :=
  ∀ (p : Params) (r : Request),
    ∃ t, Host.Core.run Sys2Proof.core 2 ({ State.resetWith p with hostStream := [.command r] } : State) = .next t ∧
      ((∃ d, State.response t = some ⟨.ok, d⟩) ↔
        (decode r.cmd = .ok .create ∨ (decode r.cmd = .ok .deserialize ∧ r.ldLen = 48)))

/-- 70_reset_and_hazards.md R239 (every command completes) and 60_exceptions.md R207 (no trap): every state has a next
state, and a step that starts with a command outstanding answers it. The model's choices in it: the block is untimed and one
step suffices; an idle step with nothing queued leaves the state (log 8, DEDUCED); with something queued it takes the host's
event (log 3, DESIGN CHOICE); the ports keep what the host drove (log 5, DESIGN CHOICE). -/
def Obligations.EveryStateStepsAndAnswersItsCommand : Prop :=
  ∀ s : State, ∃ t, step s = .next t ∧
    (s.outstanding = true → t.outstanding = false ∧ t.response.isSome = true ∧ t.ports = s.ports)

/-- 00_scope.md R10 and 60_exceptions.md R207: a status other than OK comes with data 0 and no change to the block. -/
def Obligations.StatusOtherThanOkChangesNothing : Prop :=
  ∀ (s t : State) (r : Response), s.outstanding = true → step s = .next t → t.response = some r → r.status ≠ .ok →
    t = { s with outstanding := false, response := some ⟨r.status, 0⟩ }

/-- 60_exceptions.md R206 and R200: every command ends with the status its checks give in their order of priority, under
that status's code. -/
def Obligations.StatusFollowsTheOrderOfChecks : Prop :=
  ∀ s : State, s.outstanding = true →
    ∃ t d, step s = .next t ∧ t.response = some ⟨expectedStatus s.ports.cmd s.valid s.ports.ldLen, d⟩ ∧
      (expectedStatus s.ports.cmd s.valid s.ports.ldLen ≠ .ok → d = 0) ∧
      t.rspStatus = some
        (match expectedStatus s.ports.cmd s.valid s.ports.ldLen with
        | .ok => 0
        | .configError => 1
        | .truncated => 2
        | .noPacket => 3
        | .illegal => 4)

/-! ### Invariants and whole-machine rules -/

/-- Every step keeps the invariant of a well-behaved transaction, from every state that has it. Its clauses follow
20_memory.md R52, 30_encoding.md R66, 10_state.md R21 and 60_exceptions.md R203, R206, and three rest on the model's choice of
log 4 (DESIGN CHOICE, unsafe) as well: `unanswered`, because presenting a command leaves no response standing, and `completed`
and `checked`, because a reset event leaves none. -/
def Obligations.StepKeepsTheTransactionInvariant : Prop :=
  ∀ s t : State, s.Inv → step s = .next t → t.Inv

/-- The invariant holds right after reset, for every build (10_state.md R28). Its clauses on the response hold there because no
response stands after reset, which is the model's choice (log 4, DESIGN CHOICE, unsafe). -/
def Obligations.ResetHasTheTransactionInvariant : Prop :=
  State.reset.Inv ∧ ∀ p : Params, (State.resetWith p).Inv

/-- 00_scope.md R5, 10_state.md R26: no step writes a build parameter. That the parameters stand in the state is the model's
choice (log 1). -/
def Obligations.StepKeepsTheBuildParameters : Prop :=
  ∀ s t : State, step s = .next t → t.params = s.params

/-- 10_state.md R21: "only reset sets `valid <- 0`; no command clears it", and only CREATE and a successful DESERIALIZE set
it. The queue a reset comes from is the model's choice (log 3). -/
def Obligations.PacketAppearsAndDisappearsOnlyAsStated : Prop :=
  ∀ s t : State, step s = .next t →
    (s.valid = true → t.valid = false → s.outstanding = false ∧ ∃ rest, s.hostStream = .reset :: rest) ∧
    (s.valid = false → t.valid = true → s.outstanding = true ∧
      (decode s.ports.cmd = .ok .create ∨ (decode s.ports.cmd = .ok .deserialize ∧ s.ports.ldLen = 48)))

/-- 20_memory.md R47 (the spec's own inference), its column of writes: CREATE and DESERIALIZE write the packet, a setter
writes byte 0 of it, and nothing else writes any of it. -/
def Obligations.PacketIsWrittenOnlyByItsWriters : Prop :=
  ∀ (i : Instr) (s t : State), exec i s = .next t → t.buf ≠ s.buf →
    i = .create ∨ i = .deserialize ∨
      ((∃ f v, i = setterOf f v) ∧
        ∃ p q, s.buf = some p ∧ t.buf = some q ∧ ∀ (k : Nat) (h : k < 48), k ≠ 0 → q[k] = p[k])

/-- 20_memory.md R48, R51: the host's events take effect whole, one at a time and in the host's order. Running the machine
over a stream is the same as serving its events one after the other, each in full. The stream is the model's own (log 3). -/
def Obligations.StreamIsServedWholeAndInOrder : Prop :=
  ∀ (l : List HostEvent) (s : State), s.outstanding = false → s.hostStream = l →
    Host.Core.run Sys2Proof.core (l.map stepsOf).sum s = serveAll l { s with hostStream := [] }

/-- 00_scope.md R2, 10_state.md R25, 30_encoding.md R69: a command's effect and response depend on the build, the packet and,
for DESERIALIZE alone, the load port; an earlier response cannot be read. -/
def Obligations.CommandSeesOnlyPacketBuildAndItsOwnOperands : Prop :=
  ∀ (i : Instr) (s₁ s₂ t₁ t₂ : State), s₁.params = s₂.params → s₁.buf = s₂.buf →
    (i = .deserialize → s₁.ports.ldLen = s₂.ports.ldLen ∧ s₁.ports.ldData = s₂.ports.ldData) →
    exec i s₁ = .next t₁ → exec i s₂ = .next t₂ → t₁.buf = t₂.buf ∧ t₁.response = t₂.response

/-- 20_memory.md R47 (the spec's own inference), its column of reads, and R45: the answer of a command that only reads
depends on no byte but the ones listed for it. -/
def Obligations.ReaderSeesOnlyItsOwnBytes : Prop :=
  ∀ i ∈ readers, ∀ (s₁ s₂ t₁ t₂ : State) (p₁ p₂ : Packet), s₁.params = s₂.params →
    s₁.buf = some p₁ → s₂.buf = some p₂ →
    (∀ (k : Nat) (h : k < 48), (bytesRead i).1 ≤ k → k < (bytesRead i).1 + (bytesRead i).2 → p₁[k] = p₂[k]) →
    exec i s₁ = .next t₁ → exec i s₂ = .next t₂ → t₁.response = t₂.response

/-- 20_memory.md R49 (the spec's own inference): a command issued twice with nothing between leaves what it left, and
answers what it answered, the first time. -/
def Obligations.RepeatedCommandIsIdempotent : Prop :=
  ∀ (i : Instr) (s t : State), exec i s = .next t → exec i t = .next t

/-! ### Frames -/

/-- What the getters and SERIALIZE leave unchanged: everything but the response and the end of the transaction. -/
def Obligations.ReadersFrame : Prop :=
  ∀ i ∈ readers, ∀ s t : State, exec i s = .next t →
    t.params = s.params ∧ t.ports = s.ports ∧ t.hostStream = s.hostStream ∧ t.valid = s.valid ∧
    ∀ p, s.buf = some p → ∃ q, t.buf = some q ∧ ∀ (k : Nat) (h : k < 48), byteAt q k h = byteAt p k h

/-- What SET_LEAP, SET_VERSION and SET_MODE leave unchanged: every byte of the packet but byte 0, and everything else but the
response and the end of the transaction. -/
def Obligations.SettersFrame : Prop :=
  ∀ (f : FlagField) (v : Nat) (s t : State), exec (setterOf f v) s = .next t →
    t.params = s.params ∧ t.ports = s.ports ∧ t.hostStream = s.hostStream ∧ t.valid = s.valid ∧
    ∀ p, s.buf = some p →
      ∃ q, t.buf = some q ∧ ∀ (k : Nat) (h : k < 48), ¬ (0 ≤ k ∧ k < 0 + 1) → byteAt q k h = byteAt p k h

/-- What CREATE and DESERIALIZE leave unchanged: everything but the packet, the response and the end of the transaction; and
a DESERIALIZE whose length is not 48 leaves every byte too. -/
def Obligations.CreateAndDeserializeFrame : Prop :=
  ∀ (i : Instr) (s t : State), i = .create ∨ i = .deserialize → exec i s = .next t →
    t.params = s.params ∧ t.ports = s.ports ∧ t.hostStream = s.hostStream ∧
    (i = .deserialize → s.ports.ldLen ≠ 48 → t.buf = s.buf)

/-! ### Construction -/

/-- 40_construction.md R80: CREATE, in every state and for both parameters. -/
def Obligations.CreateBuildsTheDefaultRequest : Prop :=
  decode 0x0100#16 = .ok .create ∧
  ∀ s : State, ∃ p : Packet,
    exec .create s = .next { s with buf := some p, outstanding := false, response := some ⟨.ok, 0⟩ } ∧
    p[0] = 0x1B#8 ∧ ∀ (k : Nat) (h : k < 48), k ≠ 0 → p[k] = 0#8

/-- 40_construction.md R81 (the spec's own inference): what every getter answers after CREATE, for both parameters. -/
def Obligations.GettersAfterCreateReadTheDefaults : Prop :=
  ∀ s t : State, exec .create s = .next t →
    ∀ x ∈ ([(.getLeap, 0), (.getVersion, 3), (.getMode, 3), (.getStratum, 0), (.getPoll, 1000000000),
        (.getPrecision, 1000000000), (.getRootDelay, 0), (.getRootDispersion, 0), (.getRefId, 0), (.getRefTs, 0),
        (.getOriginTs, 0), (.getReceiveTs, 0), (.getTransmitTs, 0)] : List (Instr × RspData)),
      exec x.1 t = .next { t with outstanding := false, response := some ⟨.ok, x.2⟩ }

/-! ### Byte-0 bit fields -/

/-- 41_bitfield_flags.md R93: SET_LEAP, with the range check of R91. -/
def Obligations.SetLeapWritesTheLeapIndicator : Prop :=
  (∀ v ≤ 255, decode (0x1000#16 + BitVec.ofNat 16 v) = .ok (.setLeap v)) ∧
  (∀ (s : State) (v : Nat), s.buf = none →
    exec (.setLeap v) s = .next { s with outstanding := false, response := some ⟨.noPacket, 0⟩ }) ∧
  (∀ (s : State) (p : Packet) (v : Nat), s.buf = some p → 3 < v →
    exec (.setLeap v) s = .next { s with outstanding := false, response := some ⟨.configError, 0⟩ }) ∧
  (∀ (s : State) (p : Packet) (v : Nat), s.buf = some p → v ≤ 3 →
    exec (.setLeap v) s = .next
      { s with
        buf := some (p.set 0
          (match s.params.flagWrite with
          | .or => p[0] ||| BitVec.ofNat 8 (v * 64)
          | .assign => BitVec.ofNat 2 v ++ p[0].extractLsb' 0 6))
        outstanding := false
        response := some ⟨.ok, 0⟩ })

/-- 41_bitfield_flags.md R95: SET_VERSION, with the range check of R91. -/
def Obligations.SetVersionWritesTheVersion : Prop :=
  (∀ v ≤ 255, decode (0x1100#16 + BitVec.ofNat 16 v) = .ok (.setVersion v)) ∧
  (∀ (s : State) (v : Nat), s.buf = none →
    exec (.setVersion v) s = .next { s with outstanding := false, response := some ⟨.noPacket, 0⟩ }) ∧
  (∀ (s : State) (p : Packet) (v : Nat), s.buf = some p → 7 < v →
    exec (.setVersion v) s = .next { s with outstanding := false, response := some ⟨.configError, 0⟩ }) ∧
  (∀ (s : State) (p : Packet) (v : Nat), s.buf = some p → v ≤ 7 →
    exec (.setVersion v) s = .next
      { s with
        buf := some (p.set 0
          (match s.params.flagWrite with
          | .or => p[0] ||| BitVec.ofNat 8 (v * 8)
          | .assign => p[0].extractLsb' 6 2 ++ BitVec.ofNat 3 v ++ p[0].extractLsb' 0 3))
        outstanding := false
        response := some ⟨.ok, 0⟩ })

/-- 41_bitfield_flags.md R97: SET_MODE, with the range check of R91. -/
def Obligations.SetModeWritesTheMode : Prop :=
  (∀ v ≤ 255, decode (0x1200#16 + BitVec.ofNat 16 v) = .ok (.setMode v)) ∧
  (∀ (s : State) (v : Nat), s.buf = none →
    exec (.setMode v) s = .next { s with outstanding := false, response := some ⟨.noPacket, 0⟩ }) ∧
  (∀ (s : State) (p : Packet) (v : Nat), s.buf = some p → 7 < v →
    exec (.setMode v) s = .next { s with outstanding := false, response := some ⟨.configError, 0⟩ }) ∧
  (∀ (s : State) (p : Packet) (v : Nat), s.buf = some p → v ≤ 7 →
    exec (.setMode v) s = .next
      { s with
        buf := some (p.set 0
          (match s.params.flagWrite with
          | .or => p[0] ||| BitVec.ofNat 8 v
          | .assign => p[0].extractLsb' 3 5 ++ BitVec.ofNat 3 v))
        outstanding := false
        response := some ⟨.ok, 0⟩ })

/-- 41_bitfield_flags.md R94, R96, R98: the three byte-0 getters. -/
def Obligations.ByteZeroGettersReadTheirBits : Prop :=
  (decode 0x2000#16 = .ok .getLeap ∧ decode 0x2100#16 = .ok .getVersion ∧ decode 0x2200#16 = .ok .getMode) ∧
  (∀ s : State, s.buf = none → ∀ i ∈ [Instr.getLeap, .getVersion, .getMode],
    exec i s = .next { s with outstanding := false, response := some ⟨.noPacket, 0⟩ }) ∧
  (∀ (s : State) (p : Packet), s.buf = some p →
    exec .getLeap s = .next
      { s with outstanding := false, response := some ⟨.ok, BitVec.ofNat 384 (p[0].toNat / 64)⟩ } ∧
    exec .getVersion s = .next
      { s with outstanding := false, response := some ⟨.ok, BitVec.ofNat 384 (p[0].toNat / 8 % 8)⟩ } ∧
    exec .getMode s = .next
      { s with outstanding := false, response := some ⟨.ok, BitVec.ofNat 384 (p[0].toNat % 8)⟩ })

/-- 20_memory.md R41: byte 0 is LI*64 + VN*8 + Mode, of what its three getters answer. -/
def Obligations.ByteZeroIsItsThreeSubfields : Prop :=
  ∀ (s : State) (p : Packet), s.buf = some p →
    ∃ li vn md : Nat, li < 4 ∧ vn < 8 ∧ md < 8 ∧ p[0].toNat = li * 64 + vn * 8 + md ∧
      exec .getLeap s = .next { s with outstanding := false, response := some ⟨.ok, BitVec.ofNat 384 li⟩ } ∧
      exec .getVersion s = .next { s with outstanding := false, response := some ⟨.ok, BitVec.ofNat 384 vn⟩ } ∧
      exec .getMode s = .next { s with outstanding := false, response := some ⟨.ok, BitVec.ofNat 384 md⟩ }

/-- 41_bitfield_flags.md R99 (the spec's own inference): a setter leaves the other two sub-fields reading as before, for both
values of `P_FLAG_WRITE`. -/
def Obligations.SetterLeavesTheOtherSubfields : Prop :=
  ∀ (f g : FlagField) (v : Nat) (s t us ut : State), f ≠ g → exec (setterOf f v) s = .next t →
    exec (getterOf g) s = .next us → exec (getterOf g) t = .next ut → ut.response = us.response

/-- 41_bitfield_flags.md R101 (the spec's own inference): what a getter answers right after a setter of its own field. -/
def Obligations.GetterAfterSetterReadsTheWrittenValue : Prop :=
  ∀ (f : FlagField) (v : Nat) (s u₀ : State) (d₀ : RspData), v ≤ f.maximum →
    exec (getterOf f) s = .next u₀ → u₀.response = some ⟨.ok, d₀⟩ →
    ∃ t u, exec (setterOf f v) s = .next t ∧ exec (getterOf f) t = .next u ∧
      u.response = some ⟨.ok,
        match s.params.flagWrite with
        | .or => d₀ ||| BitVec.ofNat 384 v
        | .assign => BitVec.ofNat 384 v⟩

/-- 41_bitfield_flags.md R100 (the spec's own inference): with OR, setters of one sub-field accumulate, whatever their number
and order; with ASSIGN the last one stands. -/
def Obligations.RepeatedSettersAccumulateOrReplace : Prop :=
  ∀ (f : FlagField) (vs : List Nat) (v : Nat) (s u₀ : State) (d₀ : RspData), (∀ x ∈ vs, x ≤ f.maximum) → v ≤ f.maximum →
    exec (getterOf f) s = .next u₀ → u₀.response = some ⟨.ok, d₀⟩ →
    ∃ t u, execAll ((vs ++ [v]).map (setterOf f)) s = .next t ∧ exec (getterOf f) t = .next u ∧
      u.response = some ⟨.ok,
        match s.params.flagWrite with
        | .or => (vs ++ [v]).foldl (fun d x => d ||| BitVec.ofNat 384 x) d₀
        | .assign => BitVec.ofNat 384 v⟩

/-! ### Single-byte fields and the log2 converter -/

/-- 42_byte_fields_log2.md R110: GET_STRATUM. -/
def Obligations.GetStratumReadsByteOne : Prop :=
  decode 0x2300#16 = .ok .getStratum ∧
  (∀ s : State, s.buf = none →
    exec .getStratum s = .next { s with outstanding := false, response := some ⟨.noPacket, 0⟩ }) ∧
  (∀ (s : State) (p : Packet), s.buf = some p →
    exec .getStratum s = .next
      { s with outstanding := false, response := some ⟨.ok, BitVec.ofNat 384 p[1].toNat⟩ })

/-- 42_byte_fields_log2.md R111, R112, R113: GET_POLL and GET_PRECISION, by the sign of the exponent. -/
def Obligations.PollAndPrecisionShiftOneSecond : Prop :=
  (decode 0x2400#16 = .ok .getPoll ∧ decode 0x2500#16 = .ok .getPrecision) ∧
  (∀ s : State, s.buf = none → ∀ i ∈ [Instr.getPoll, .getPrecision],
    exec i s = .next { s with outstanding := false, response := some ⟨.noPacket, 0⟩ }) ∧
  (∀ (s : State) (p : Packet), s.buf = some p →
    ∀ x ∈ [(Instr.getPoll, p[2]), (Instr.getPrecision, p[3])], ∃ d : Nanos,
      exec x.1 s = .next { s with outstanding := false, response := some ⟨.ok, d.setWidth 384⟩ } ∧
      (0 < x.2.toInt → d = BitVec.ofInt 64 (1000000000 * 2 ^ x.2.toInt.toNat)) ∧
      (x.2.toInt < 0 → d = BitVec.ofNat 64 (1000000000 / 2 ^ (-x.2.toInt).toNat)) ∧
      (x.2.toInt = 0 → d = 1000000000#64))

/-- 42_byte_fields_log2.md R114 (the spec's own inference): the log2 converter over its whole domain. -/
def Obligations.Log2DurationByRangeOfExponent : Prop :=
  ∀ (s : State) (p : Packet), s.buf = some p →
    ∀ x ∈ [(Instr.getPoll, p[2].toInt), (Instr.getPrecision, p[3].toInt)], ∃ d : Nanos,
      exec x.1 s = .next { s with outstanding := false, response := some ⟨.ok, d.setWidth 384⟩ } ∧
      (1 ≤ x.2 → x.2 ≤ 33 → d.toInt = 1000000000 * 2 ^ x.2.toNat) ∧
      (34 ≤ x.2 → x.2 ≤ 54 → d.toInt = (1000000000 * 2 ^ x.2.toNat : Int).bmod (2 ^ 64) ∧ d ≠ 0 ∧
        d.toInt ≠ 1000000000 * 2 ^ x.2.toNat) ∧
      (55 ≤ x.2 → d = 0) ∧
      (x.2 = 0 → d.toInt = 1000000000) ∧
      (-9 ≤ x.2 → x.2 < 0 → d.toInt * 2 ^ (-x.2).toNat = 1000000000) ∧
      (-29 ≤ x.2 → x.2 < -9 → 0 < d.toInt ∧ d.toInt * 2 ^ (-x.2).toNat < 1000000000 ∧
        1000000000 < (d.toInt + 1) * 2 ^ (-x.2).toNat) ∧
      (x.2 < -29 → d = 0)

/-! ### The 16.16 converter -/

/-- 43_duration_16_16.md R130, R132, R133: GET_ROOT_DELAY and GET_ROOT_DISPERSION, for both values of `P_ROOT_SCALE`. -/
def Obligations.RootGettersConvertSixteenSixteen : Prop :=
  (decode 0x2600#16 = .ok .getRootDelay ∧ decode 0x2700#16 = .ok .getRootDispersion) ∧
  (∀ s : State, s.buf = none → ∀ i ∈ [Instr.getRootDelay, .getRootDispersion],
    exec i s = .next { s with outstanding := false, response := some ⟨.noPacket, 0⟩ }) ∧
  (∀ (s : State) (p : Packet), s.buf = some p →
    ∀ x ∈ [(Instr.getRootDelay, p[4], p[5], p[6], p[7]), (Instr.getRootDispersion, p[8], p[9], p[10], p[11])],
      let sec : Int := x.2.1.toInt * 256 + x.2.2.1.toNat
      let frac : Int := x.2.2.2.1.toNat * 256 + x.2.2.2.2.toNat
      let ns : Int := sec * 1000000000 + frac * 1000000000 / 65536
      exec x.1 s = .next
        { s with
          outstanding := false
          response := some ⟨.ok,
            (BitVec.ofInt 64
              (match s.params.rootScale with
              | .rfc => ns
              | .legacy => ns * 1000000000)).setWidth 384⟩ })

/-- 43_duration_16_16.md R131 (the spec's own inference): the range of the RFC count, that it is the floor of the whole signed
16.16 number, and where the LEGACY product is exact. -/
def Obligations.SixteenSixteenIsFlooredAndBounded : Prop :=
  ∀ w : BitVec 32,
    (fx16 .rfc w).toInt = w.toInt * 1000000000 / 65536 ∧
    -32768000000000 ≤ (fx16 .rfc w).toInt ∧ (fx16 .rfc w).toInt ≤ 32767999984741 ∧
    ((fx16 .legacy w).toInt = (fx16 .rfc w).toInt * 1000000000 ↔
      -9223372036 ≤ (fx16 .rfc w).toInt ∧ (fx16 .rfc w).toInt ≤ 9223372036)

/-! ### The 32.32 converter -/

/-- 44_timestamp_32_32.md R150, R152, R153, R154, R155: the four timestamp getters. -/
def Obligations.TimestampGettersConvertThirtyTwoThirtyTwo : Prop :=
  (decode 0x2900#16 = .ok .getRefTs ∧ decode 0x2A00#16 = .ok .getOriginTs ∧ decode 0x2B00#16 = .ok .getReceiveTs ∧
    decode 0x2C00#16 = .ok .getTransmitTs) ∧
  (∀ s : State, s.buf = none → ∀ i ∈ [Instr.getRefTs, .getOriginTs, .getReceiveTs, .getTransmitTs],
    exec i s = .next { s with outstanding := false, response := some ⟨.noPacket, 0⟩ }) ∧
  (∀ (s : State) (p : Packet), s.buf = some p →
    ∀ x ∈ [(Instr.getRefTs, fieldWord p 16 (by decide), fieldWord p 20 (by decide)),
        (Instr.getOriginTs, fieldWord p 24 (by decide), fieldWord p 28 (by decide)),
        (Instr.getReceiveTs, fieldWord p 32 (by decide), fieldWord p 36 (by decide)),
        (Instr.getTransmitTs, fieldWord p 40 (by decide), fieldWord p 44 (by decide))],
      exec x.1 s = .next
        { s with
          outstanding := false
          response := some ⟨.ok, BitVec.ofNat 384 (x.2.1 * 1000000000 + x.2.2 * 1000000000 / 2 ^ 32)⟩ })

/-- 44_timestamp_32_32.md R151 (the spec's own inference): the count's range, that it never wraps, and its order. -/
def Obligations.ThirtyTwoThirtyTwoIsBoundedAndMonotone : Prop :=
  ∀ sec frac sec' frac' : BitVec 32,
    frac.toNat * 1000000000 / 2 ^ 32 ≤ 999999999 ∧
    (ts32 sec frac).toNat ≤ 4294967295999999999 ∧
    (ts32 sec frac).toInt = (ts32 sec frac).toNat ∧
    ((sec ++ frac).toNat ≤ (sec' ++ frac').toNat → (ts32 sec frac).toNat ≤ (ts32 sec' frac').toNat) ∧
    (sec.toNat < sec'.toNat → (ts32 sec frac).toNat < (ts32 sec' frac').toNat)

/-- 44_timestamp_32_32.md R156 (the spec's own inference): the same eight bytes give the same answer in any of the four
timestamp fields; and, from 43_duration_16_16.md R133, the same four in either root field. -/
def Obligations.SameBytesSameAnswerInAnyField : Prop :=
  (∀ x ∈ [(Instr.getRefTs, 16), (Instr.getOriginTs, 24), (Instr.getReceiveTs, 32), (Instr.getTransmitTs, 40)],
    ∀ y ∈ [(Instr.getRefTs, 16), (Instr.getOriginTs, 24), (Instr.getReceiveTs, 32), (Instr.getTransmitTs, 40)],
    ∀ (s₁ s₂ t₁ t₂ : State) (p₁ p₂ : Packet), s₁.buf = some p₁ → s₂.buf = some p₂ →
      (∀ k < 8, p₁[x.2 + k]? = p₂[y.2 + k]?) →
      exec x.1 s₁ = .next t₁ → exec y.1 s₂ = .next t₂ → t₁.response = t₂.response) ∧
  (∀ (s₁ s₂ t₁ t₂ : State) (p₁ p₂ : Packet), s₁.params = s₂.params → s₁.buf = some p₁ → s₂.buf = some p₂ →
      (∀ k < 4, p₁[4 + k]? = p₂[8 + k]?) →
      exec .getRootDelay s₁ = .next t₁ → exec .getRootDispersion s₂ = .next t₂ → t₁.response = t₂.response)

/-! ### Reference ID and transfer -/

/-- 45_reference_id.md R170: GET_REFID. -/
def Obligations.GetRefIdReadsFourBytesUnchanged : Prop :=
  decode 0x2800#16 = .ok .getRefId ∧
  (∀ s : State, s.buf = none →
    exec .getRefId s = .next { s with outstanding := false, response := some ⟨.noPacket, 0⟩ }) ∧
  (∀ (s : State) (p : Packet), s.buf = some p →
    exec .getRefId s = .next
      { s with outstanding := false, response := some ⟨.ok, BitVec.ofNat 384 (fieldWord p 12 (by decide))⟩ })

/-- 45_reference_id.md R171 (the spec's own inference): four received bytes come back from GET_REFID as they were. -/
def Obligations.ReferenceIdRoundTrips : Prop :=
  ∀ s : State, s.ports.ldLen = 48 →
    ∃ t u d, exec .deserialize s = .next t ∧ exec .getRefId t = .next u ∧ u.response = some ⟨.ok, d⟩ ∧
      ∀ (k : Nat) (h : k < 4), d.extractLsb' (24 - 8 * k) 8 = s.ports.ldData[12 + k]

/-- 46_transfer.md R182: SERIALIZE puts byte i of the packet at `rsp_data[383-8i : 376-8i]`. -/
def Obligations.SerializeOutputsThePacketBytes : Prop :=
  decode 0x3000#16 = .ok .serialize ∧
  (∀ s : State, s.buf = none →
    exec .serialize s = .next { s with outstanding := false, response := some ⟨.noPacket, 0⟩ }) ∧
  (∀ (s : State) (p : Packet), s.buf = some p →
    ∃ d, exec .serialize s = .next { s with outstanding := false, response := some ⟨.ok, d⟩ } ∧
      ∀ (k : Nat) (h : k < 48), d.extractLsb' (376 - 8 * k) 8 = p[k])

/-- 46_transfer.md R185: DESERIALIZE, with a packet held or none. -/
def Obligations.DeserializeTakesExactlyFortyEightBytes : Prop :=
  decode 0x3100#16 = .ok .deserialize ∧
  (∀ s : State, s.ports.ldLen ≠ 48 →
    exec .deserialize s = .next { s with outstanding := false, response := some ⟨.truncated, 0⟩ }) ∧
  (∀ s : State, s.ports.ldLen = 48 →
    exec .deserialize s = .next
      { s with buf := some s.ports.ldData, outstanding := false, response := some ⟨.ok, 0⟩ })

/-- 46_transfer.md R186 (the spec's own inference): SERIALIZE and DESERIALIZE undo each other, both ways round. -/
def Obligations.SerializeAndDeserializeRoundTrip : Prop :=
  (∀ (s : State) (p : Packet), s.buf = some p →
    ∃ t d, exec .serialize s = .next t ∧ t.response = some ⟨.ok, d⟩ ∧
      ∀ t' : State, t'.ports.ldLen = 48 → t'.ports.ldData = unpackBytes48 d →
        ∃ u, exec .deserialize t' = .next u ∧ u.buf = s.buf) ∧
  (∀ s : State, s.ports.ldLen = 48 →
    ∃ t u d, exec .deserialize s = .next t ∧ exec .serialize t = .next u ∧ u.response = some ⟨.ok, d⟩ ∧
      unpackBytes48 d = s.ports.ldData)

/-! ### The packet register and the check for a packet -/

/-- 00_scope.md R8: `MemRead` is the big-endian sum over the bytes, and `MemWrite` writes each byte of the value at its place
and no other. -/
def Obligations.MemReadAndMemWriteAreBigEndian : Prop :=
  ∀ (p : Packet) (a n v : Nat) (h : a + n ≤ 48),
    memRead p a n h = ∑ k : Fin n, (p[a + k.val]'(by omega)).toNat * 2 ^ (8 * (n - 1 - k.val)) ∧
    ∀ (j : Nat) (hj : j < 48), (memWrite p a n v h)[j] =
      if a ≤ j ∧ j < a + n then BitVec.ofNat 8 (v / 2 ^ (8 * (n - 1 - (j - a)))) else p[j]

/-- 60_exceptions.md R203: NO_PACKET, before any check of the command's own rule, from every command but CREATE and
DESERIALIZE, and from no other. -/
def Obligations.NoPacketComesBeforeTheCommandsOwnChecks : Prop :=
  ∀ (i : Instr) (s : State),
    (i ≠ .create → i ≠ .deserialize → s.valid = false →
      exec i s = .next { s with outstanding := false, response := some ⟨.noPacket, 0⟩ }) ∧
    (∀ t d, exec i s = .next t → t.response = some ⟨.noPacket, d⟩ → s.valid = false ∧ i ≠ .create ∧ i ≠ .deserialize)
end

