-- ==== Sys2Proof/Laws/State.lean ====
section
/-! SUPPORT. One lemma per field of State and per update of it. -/

namespace Sys2Proof.Machine

section respond
variable (s : State) (st : Status) (d : RspData)
@[simp] theorem respond_params : (s.respond st d).params = s.params := rfl
@[simp] theorem respond_buf : (s.respond st d).buf = s.buf := rfl
@[simp] theorem respond_ports : (s.respond st d).ports = s.ports := rfl
@[simp] theorem respond_outstanding : (s.respond st d).outstanding = false := rfl
@[simp] theorem respond_response : (s.respond st d).response = some ⟨st, d⟩ := rfl
@[simp] theorem respond_hostStream : (s.respond st d).hostStream = s.hostStream := rfl
@[simp] theorem respond_valid : (s.respond st d).valid = s.valid := rfl
@[simp] theorem respond_respond (st' : Status) (d' : RspData) :
    (s.respond st' d').respond st d = s.respond st d := rfl
end respond

section setBuf
variable (s : State) (p : Packet)
@[simp] theorem setBuf_params : (s.setBuf p).params = s.params := rfl
@[simp] theorem setBuf_buf : (s.setBuf p).buf = some p := rfl
@[simp] theorem setBuf_ports : (s.setBuf p).ports = s.ports := rfl
@[simp] theorem setBuf_outstanding : (s.setBuf p).outstanding = s.outstanding := rfl
@[simp] theorem setBuf_response : (s.setBuf p).response = s.response := rfl
@[simp] theorem setBuf_hostStream : (s.setBuf p).hostStream = s.hostStream := rfl
@[simp] theorem setBuf_valid : (s.setBuf p).valid = true := rfl
end setBuf

@[simp] theorem resetWith_params (p : Params) : (State.resetWith p).params = p := rfl
@[simp] theorem resetWith_buf (p : Params) : (State.resetWith p).buf = none := rfl
@[simp] theorem resetWith_ports (p : Params) : (State.resetWith p).ports = Request.blank := rfl
@[simp] theorem resetWith_outstanding (p : Params) : (State.resetWith p).outstanding = false := rfl
@[simp] theorem resetWith_response (p : Params) : (State.resetWith p).response = none := rfl
@[simp] theorem resetWith_hostStream (p : Params) : (State.resetWith p).hostStream = [] := rfl

theorem valid_iff_buf (s : State) : s.valid = true ↔ ∃ p, s.buf = some p := by
  simp [State.valid, Option.isSome_iff_exists]

theorem not_valid_iff_buf (s : State) : s.valid = false ↔ s.buf = none := by
  simp [State.valid]

end Sys2Proof.Machine
end

