-- ==== Sys2Proof/Laws/Ops.lean ====
section
/-! SUPPORT. One lemma per shared operation that says everything it can do. -/

namespace Sys2Proof.Machine

/-! ### How a command ends -/

theorem raise_eq (st : Status) (s : State) : raise st s = .next (s.respond st 0) := rfl

theorem returnOk_eq (d : RspData) (s : State) : returnOk d s = .next (s.respond .ok d) := rfl

theorem withPacket_none {s : State} (h : s.buf = none) (body : Packet → StepResult) :
    withPacket s body = .next (s.respond .noPacket 0) := by
  simp [withPacket, h, raise_eq]

theorem withPacket_some {s : State} {p : Packet} (h : s.buf = some p) (body : Packet → StepResult) :
    withPacket s body = body p := by
  simp [withPacket, h]

/-! ### The host's operations -/

theorem present_idle {s : State} (h : s.outstanding = false) (r : Request) :
    State.present r s = .next { s with ports := r, outstanding := true, response := none } := by
  simp [State.present, h]

theorem present_outstanding {s : State} (h : s.outstanding = true) (r : Request) :
    State.present r s = .fault .overlappingCommand := by
  simp [State.present, h]

theorem applyReset_idle {s : State} (h : s.outstanding = false) :
    State.applyReset s = .next { s with buf := none, response := none } := by
  simp [State.applyReset, h]

theorem applyReset_outstanding {s : State} (h : s.outstanding = true) :
    State.applyReset s = .refused .resetDuringCommand := by
  simp [State.applyReset, h]

/-- What an idle block can do: wait, take a command, or take a reset. -/
theorem hostTurn_cases {s : State} (h : s.outstanding = false) :
    (s.hostStream = [] ∧ hostTurn s = .next s) ∨
    (∃ r rest, s.hostStream = .command r :: rest ∧
      hostTurn s = .next { s with hostStream := rest, ports := r, outstanding := true, response := none }) ∨
    (∃ rest, s.hostStream = .reset :: rest ∧
      hostTurn s = .next { s with hostStream := rest, buf := none, response := none }) := by
  cases hs : s.hostStream with
  | nil => exact .inl ⟨rfl, by simp [hostTurn, hs]⟩
  | cons e rest =>
    cases e with
    | command r => exact .inr (.inl ⟨r, rest, rfl, by simp [hostTurn, hs, State.present, h]⟩)
    | reset => exact .inr (.inr ⟨rest, rfl, by simp [hostTurn, hs, State.applyReset, h]⟩)

/-! ### Bytes of the packet register -/

theorem byteAt_writeByte (p : Packet) (i j : Nat) (v : Byte) (hi : i < 48) (hj : j < 48) :
    byteAt (writeByte p i v hi) j hj = if i = j then v else byteAt p j hj := by
  simp [byteAt, writeByte, Vector.getElem_set]

@[simp] theorem byteAt_writeByte_same (p : Packet) (i : Nat) (v : Byte) (h : i < 48) :
    byteAt (writeByte p i v h) i h = v := by
  simp [byteAt_writeByte]

theorem byteAt_writeByte_other (p : Packet) {i j : Nat} (v : Byte) (hi : i < 48) (hj : j < 48) (h : i ≠ j) :
    byteAt (writeByte p i v hi) j hj = byteAt p j hj := by
  simp [byteAt_writeByte, h]

/-- A later write of a byte replaces an earlier one. -/
@[simp] theorem writeByte_writeByte (p : Packet) (i : Nat) (v w : Byte) (h : i < 48) :
    writeByte (writeByte p i v h) i w h = writeByte p i w h := by
  simp [writeByte, Vector.set_set]

/-- A big-endian value of `n` bytes fits `n` bytes. -/
theorem memRead_lt (p : Packet) (a n : Nat) (h : a + n ≤ 48) : memRead p a n h < 256 ^ n := by
  induction n with
  | zero => simp [memRead]
  | succ n ih =>
    have := ih (by omega)
    have hb := (byteAt p (a + n) (by omega)).isLt
    simp only [memRead, Nat.pow_succ]
    omega

/-- What `MemRead` returns depends only on the bytes it reads. -/
theorem memRead_congr (p q : Packet) (a b n : Nat) (h : a + n ≤ 48) (h' : b + n ≤ 48)
    (hpq : ∀ (k : Nat) (hk : k < n), byteAt p (a + k) (by omega) = byteAt q (b + k) (by omega)) :
    memRead p a n h = memRead q b n h' := by
  induction n with
  | zero => rfl
  | succ n ih =>
    simp only [memRead]
    rw [ih (by omega) (by omega) fun k hk => hpq k (by omega), hpq n (by omega)]

/-- Byte `k` of a value `MemRead` returns is the byte it was read from. -/
theorem memRead_byte (p : Packet) (a n : Nat) (h : a + n ≤ 48) (k : Nat) (hk : k < n) :
    memRead p a n h / 256 ^ (n - 1 - k) % 256 = (byteAt p (a + k) (by omega)).toNat := by
  induction n with
  | zero => omega
  | succ n ih =>
    have hb := (byteAt p (a + n) (by omega)).isLt
    rcases Nat.lt_succ_iff_lt_or_eq.mp hk with hlt | rfl
    · have he : n + 1 - 1 - k = (n - 1 - k) + 1 := by omega
      rw [memRead, he, Nat.pow_succ', ← Nat.div_div_eq_div_mul,
        show (memRead p a n (by omega) * 256 + (byteAt p (a + n) (by omega)).toNat) / 256 = memRead p a n (by omega) by omega]
      exact ih (by omega) hlt
    · simp only [memRead, Nat.add_sub_cancel, Nat.sub_self, Nat.pow_zero, Nat.div_one]
      omega

/-! ### Sub-fields of byte 0 -/

/-- The shared setter, in each of its three cases. -/
theorem setSubfield_invalid {s : State} (h : s.buf = none) (f : FlagField) (v : Nat) :
    setSubfield f v s = .next (s.respond .noPacket 0) := withPacket_none h _

theorem setSubfield_rejects {s : State} {p : Packet} (h : s.buf = some p) {f : FlagField} {v : Nat} (hv : f.maximum < v) :
    setSubfield f v s = .next (s.respond .configError 0) := by
  simp [setSubfield, withPacket_some h, hv, raise_eq]

theorem setSubfield_writes {s : State} {p : Packet} (h : s.buf = some p) {f : FlagField} {v : Nat} (hv : v ≤ f.maximum) :
    setSubfield f v s =
      .next ((s.setBuf (writeByte p 0 (writeSubfield s.params.flagWrite f v (byteAt p 0 (by decide))) (by decide))).respond
        .ok 0) := by
  simp [setSubfield, withPacket_some h, Nat.not_lt.mpr hv, returnOk_eq, packNone]

end Sys2Proof.Machine
end

