-- ==== Sys2Proof/Laws/BitField.lean ====
section
/-! SUPPORT. The byte-0 sub-fields against each other (41_bitfield_flags.md R90, R92). -/

namespace Sys2Proof.Machine

theorem or_and_distrib (a b c : Byte) : (a ||| b) &&& c = (a &&& c) ||| (b &&& c) := by
  ext i hi
  simp [Bool.and_or_distrib_right]

/-- An in-range value, shifted into place, lies inside the sub-field's mask (41_bitfield_flags.md R90). -/
theorem operandByte_in_mask {f : FlagField} {v : Nat} (h : v ≤ f.maximum) :
    (operandByte v <<< f.shift) &&& ~~~f.mask = 0 := by
  cases f <;> simp only [FlagField.maximum] at h <;> interval_cases v <;> decide

/-- An in-range value, shifted into place and read back, is the value. -/
theorem readSubfield_shifted {f : FlagField} {v : Nat} (h : v ≤ f.maximum) :
    readSubfield f (operandByte v <<< f.shift) = operandByte v := by
  cases f <;> simp only [FlagField.maximum] at h <;> interval_cases v <;> decide

/-- Reading a sub-field goes through OR bit by bit. -/
theorem readSubfield_or (f : FlagField) (a b : Byte) :
    readSubfield f (a ||| b) = readSubfield f a ||| readSubfield f b := by
  simp [readSubfield, or_and_distrib, BitVec.ushiftRight_or_distrib]

/-- A byte with no bit inside the mask reads 0. -/
theorem readSubfield_masked_out (f : FlagField) (b : Byte) : readSubfield f (b &&& ~~~f.mask) = 0 := by
  simp [readSubfield, BitVec.and_assoc]

/-- A sub-field's bits read 0 in any other sub-field. -/
theorem readSubfield_shifted_other {f g : FlagField} (hfg : f ≠ g) {v : Nat} (h : v ≤ f.maximum) :
    readSubfield g (operandByte v <<< f.shift) = 0 := by
  cases f <;> cases g <;> first | exact absurd rfl hfg | (simp only [FlagField.maximum] at h; interval_cases v <;> decide)

/-- Masking one sub-field out leaves the others. -/
theorem readSubfield_masked_other {f g : FlagField} (hfg : f ≠ g) (b : Byte) :
    readSubfield g (b &&& ~~~f.mask) = readSubfield g b := by
  have hm : ~~~f.mask &&& g.mask = g.mask := by
    cases f <;> cases g <;> first | exact absurd rfl hfg | decide
  simp [readSubfield, BitVec.and_assoc, hm]

/-- A setter's own sub-field afterwards (41_bitfield_flags.md R92). -/
theorem readSubfield_writeSubfield (mode : FlagWrite) {f : FlagField} {v : Nat} (h : v ≤ f.maximum) (b : Byte) :
    readSubfield f (writeSubfield mode f v b) =
      match mode with
      | .or => readSubfield f b ||| operandByte v
      | .assign => operandByte v := by
  cases mode <;>
    simp [writeSubfield, readSubfield_or, readSubfield_shifted h, readSubfield_masked_out]

/-- Another sub-field after a setter (41_bitfield_flags.md R92). -/
theorem readSubfield_writeSubfield_other (mode : FlagWrite) {f g : FlagField} (hfg : f ≠ g) {v : Nat} (h : v ≤ f.maximum)
    (b : Byte) : readSubfield g (writeSubfield mode f v b) = readSubfield g b := by
  cases mode <;>
    simp [writeSubfield, readSubfield_or, readSubfield_shifted_other hfg h, readSubfield_masked_other hfg]

/-- Writing the same in-range value twice is writing it once. -/
theorem writeSubfield_idem (mode : FlagWrite) {f : FlagField} {v : Nat} (h : v ≤ f.maximum) (b : Byte) :
    writeSubfield mode f v (writeSubfield mode f v b) = writeSubfield mode f v b := by
  cases mode
  · simp [writeSubfield, BitVec.or_assoc]
  · simp [writeSubfield, or_and_distrib, BitVec.and_assoc, operandByte_in_mask h]

end Sys2Proof.Machine
end

