-- ==== Sys2Proof/Laws/Exec.lean ====
section
/-! SUPPORT. What one command can do, said once: every later fact about `exec` follows from `exec_cases`. -/

namespace Sys2Proof.Machine

/-- What a command that only reads answers, as a function of the build and the packet (20_memory.md R47). -/
def readerData (i : Instr) (scale : RootScale) (p : Packet) : RspData :=
  match i with
  | .getLeap => packU8 (readSubfield .leap (byteAt p 0 (by decide)))
  | .getVersion => packU8 (readSubfield .version (byteAt p 0 (by decide)))
  | .getMode => packU8 (readSubfield .mode (byteAt p 0 (by decide)))
  | .getStratum => packU8 (byteAt p 1 (by decide))
  | .getPoll => packDuration (log2dur (byteAt p 2 (by decide)))
  | .getPrecision => packDuration (log2dur (byteAt p 3 (by decide)))
  | .getRootDelay => packDuration (fx16 scale (BitVec.ofNat 32 (memRead p 4 4 (by decide))))
  | .getRootDispersion => packDuration (fx16 scale (BitVec.ofNat 32 (memRead p 8 4 (by decide))))
  | .getRefId => packBytes4 p 12 (by decide)
  | .getRefTs =>
    packTimestamp (ts32 (BitVec.ofNat 32 (memRead p 16 4 (by decide))) (BitVec.ofNat 32 (memRead p 20 4 (by decide))))
  | .getOriginTs =>
    packTimestamp (ts32 (BitVec.ofNat 32 (memRead p 24 4 (by decide))) (BitVec.ofNat 32 (memRead p 28 4 (by decide))))
  | .getReceiveTs =>
    packTimestamp (ts32 (BitVec.ofNat 32 (memRead p 32 4 (by decide))) (BitVec.ofNat 32 (memRead p 36 4 (by decide))))
  | .getTransmitTs =>
    packTimestamp (ts32 (BitVec.ofNat 32 (memRead p 40 4 (by decide))) (BitVec.ofNat 32 (memRead p 44 4 (by decide))))
  | .serialize => packBytes48 p
  | .create | .setLeap _ | .setVersion _ | .setMode _ | .deserialize => packNone

/-- A reading command with a packet held. -/
theorem exec_reader {i : Instr} (hi : i ∈ readers) {s : State} {p : Packet} (h : s.buf = some p) :
    exec i s = .next (s.respond .ok (readerData i s.params.rootScale p)) := by
  simp only [readers, List.mem_cons, List.not_mem_nil, or_false] at hi
  rcases hi with rfl | rfl | rfl | rfl | rfl | rfl | rfl | rfl | rfl | rfl | rfl | rfl | rfl | rfl <;>
    exact withPacket_some h _

/-- A reading command with no packet held. -/
theorem exec_reader_invalid {i : Instr} (hi : i ∈ readers) {s : State} (h : s.buf = none) :
    exec i s = .next (s.respond .noPacket 0) := by
  simp only [readers, List.mem_cons, List.not_mem_nil, or_false] at hi
  rcases hi with rfl | rfl | rfl | rfl | rfl | rfl | rfl | rfl | rfl | rfl | rfl | rfl | rfl | rfl <;>
    exact withPacket_none h _

theorem exec_setter (f : FlagField) (v : Nat) (s : State) : exec (setterOf f v) s = setSubfield f v s := by
  cases f <;> rfl

theorem getterOf_mem_readers (f : FlagField) : getterOf f ∈ readers := by
  cases f <;> decide

theorem readerData_getter (f : FlagField) (scale : RootScale) (p : Packet) :
    readerData (getterOf f) scale p = packU8 (readSubfield f (byteAt p 0 (by decide))) := by
  cases f <;> rfl

theorem exec_create (s : State) : exec .create s = .next ((s.setBuf defaultPacket).respond .ok 0) := rfl

theorem exec_deserialize_truncated {s : State} (h : s.ports.ldLen ≠ 48) :
    exec .deserialize s = .next (s.respond .truncated 0) := by
  simp [exec, execDeserialize, loadOperand, h, raise_eq]

theorem exec_deserialize_ok {s : State} (h : s.ports.ldLen = 48) :
    exec .deserialize s = .next ((s.setBuf s.ports.ldData).respond .ok 0) := by
  simp [exec, execDeserialize, loadOperand, h, returnOk_eq, packNone]

/-- Every command is CREATE, DESERIALIZE, a setter of some sub-field, or a reading command. -/
theorem instr_kinds (i : Instr) :
    i = .create ∨ i = .deserialize ∨ (∃ f v, i = setterOf f v) ∨ i ∈ readers := by
  cases i with
  | setLeap v => exact .inr (.inr (.inl ⟨.leap, v, rfl⟩))
  | setVersion v => exact .inr (.inr (.inl ⟨.version, v, rfl⟩))
  | setMode v => exact .inr (.inr (.inl ⟨.mode, v, rfl⟩))
  | create => exact .inl rfl
  | deserialize => exact .inr (.inl rfl)
  | getLeap | getVersion | getMode | getStratum | getPoll | getPrecision | getRootDelay | getRootDispersion | getRefId
  | getRefTs | getOriginTs | getReceiveTs | getTransmitTs | serialize => exact .inr (.inr (.inr (by decide)))

/-- The seven things a command can do, and when. -/
theorem exec_cases (i : Instr) (s : State) :
    (s.buf = none ∧ i ≠ .create ∧ i ≠ .deserialize ∧ exec i s = .next (s.respond .noPacket 0)) ∨
    (∃ f v p, i = setterOf f v ∧ s.buf = some p ∧ f.maximum < v ∧ exec i s = .next (s.respond .configError 0)) ∨
    (i = .deserialize ∧ s.ports.ldLen ≠ 48 ∧ exec i s = .next (s.respond .truncated 0)) ∨
    (i = .create ∧ exec i s = .next ((s.setBuf defaultPacket).respond .ok 0)) ∨
    (i = .deserialize ∧ s.ports.ldLen = 48 ∧ exec i s = .next ((s.setBuf s.ports.ldData).respond .ok 0)) ∨
    (∃ f v p, i = setterOf f v ∧ s.buf = some p ∧ v ≤ f.maximum ∧
      exec i s = .next ((s.setBuf (writeByte p 0
        (writeSubfield s.params.flagWrite f v (byteAt p 0 (by decide))) (by decide))).respond .ok 0)) ∨
    (i ∈ readers ∧ ∃ p, s.buf = some p ∧
      exec i s = .next (s.respond .ok (readerData i s.params.rootScale p))) := by
  rcases instr_kinds i with rfl | rfl | ⟨f, v, rfl⟩ | hi
  · exact .inr (.inr (.inr (.inl ⟨rfl, exec_create s⟩)))
  · by_cases h : s.ports.ldLen = 48
    · exact .inr (.inr (.inr (.inr (.inl ⟨rfl, h, exec_deserialize_ok h⟩))))
    · exact .inr (.inr (.inl ⟨rfl, h, exec_deserialize_truncated h⟩))
  · cases hb : s.buf with
    | none =>
      exact .inl ⟨rfl, by cases f <;> simp [setterOf], by cases f <;> simp [setterOf],
        (exec_setter f v s).trans (setSubfield_invalid hb f v)⟩
    | some p =>
      rcases Nat.lt_or_ge f.maximum v with hv | hv
      · exact .inr (.inl ⟨f, v, p, rfl, rfl, hv, (exec_setter f v s).trans (setSubfield_rejects hb hv)⟩)
      · exact .inr (.inr (.inr (.inr (.inr (.inl ⟨f, v, p, rfl, rfl, hv,
          (exec_setter f v s).trans (setSubfield_writes hb hv)⟩)))))
  · cases hb : s.buf with
    | none =>
      exact .inl ⟨rfl, by rintro rfl; revert hi; decide, by rintro rfl; revert hi; decide, exec_reader_invalid hi hb⟩
    | some p => exact .inr (.inr (.inr (.inr (.inr (.inr ⟨hi, p, rfl, exec_reader hi hb⟩)))))

end Sys2Proof.Machine
end

