-- ==== Sys2Proof/Laws/Convert.lean ====
section
/-! SUPPORT. The converters and the packing of results as plain arithmetic, so that no later proof unfolds them. -/

namespace Sys2Proof.Machine

/-- `NS` as an integer. Cite it: letting a tactic compare the two spellings by evaluation is costly. -/
theorem nsPerSecond_int : ((nsPerSecond : Nat) : Int) = 1000000000 := rfl

/-- Narrowing after `wrap64s` is narrowing: both keep the low 64 bits (00_scope.md R9). -/
theorem ofInt_wrap64s (z : Int) : BitVec.ofInt 64 (wrap64s z) = BitVec.ofInt 64 z := by
  apply BitVec.eq_of_toInt_eq
  simp [wrap64s, BitVec.toInt_ofInt]

/-- Four bytes read as one word (20_memory.md R44). -/
theorem memRead_four (p : Packet) (a : Nat) (h : a + 4 ≤ 48) : memRead p a 4 h = fieldWord p a h := by
  simp only [memRead, fieldWord, byteAt, Nat.add_zero]
  omega

theorem fieldWord_lt (p : Packet) (a : Nat) (h : a + 4 ≤ 48) : fieldWord p a h < 2 ^ 32 := by
  have := memRead_lt p a 4 h
  rw [memRead_four] at this
  omega

/-- The seconds half of a 16.16 word, by its bytes (20_memory.md R42(a)). -/
theorem fx16_high_half {F a b c d : Nat} (hc : c < 256) (hd : d < 256) (ha : a < 256) (hb : b < 256)
    (hF : F = a * 2 ^ 24 + b * 2 ^ 16 + c * 2 ^ 8 + d) :
    ((BitVec.ofNat 32 F).extractLsb' 16 16).toNat = a * 256 + b := by
  simp only [BitVec.extractLsb'_toNat, BitVec.toNat_ofNat, Nat.shiftRight_eq_div_pow]
  omega

/-- The fraction half of a 16.16 word, by its bytes (20_memory.md R42(a)). -/
theorem fx16_low_half {F a b c d : Nat} (hc : c < 256) (hd : d < 256)
    (hF : F = a * 2 ^ 24 + b * 2 ^ 16 + c * 2 ^ 8 + d) :
    ((BitVec.ofNat 32 F).extractLsb' 0 16).toNat = c * 256 + d := by
  simp only [BitVec.extractLsb'_toNat, BitVec.toNat_ofNat, Nat.shiftRight_eq_div_pow]
  omega

/-- Two bytes read as a two's-complement number: the high byte carries the sign. -/
theorem toInt_of_bytes {a b : Byte} {x : BitVec 16} (h : x.toNat = a.toNat * 256 + b.toNat) :
    x.toInt = a.toInt * 256 + b.toNat := by
  have := a.isLt
  have := b.isLt
  rw [BitVec.toInt_eq_toNat_cond, BitVec.toInt_eq_toNat_cond, h]
  push_cast
  split <;> split <;> omega

/-- The 32.32 count never wraps (44_timestamp_32_32.md R151). -/
theorem ts32_toNat (sec frac : BitVec 32) :
    (ts32 sec frac).toNat = sec.toNat * 1000000000 + frac.toNat * 1000000000 / 2 ^ 32 := by
  have := sec.isLt
  have := frac.isLt
  rw [ts32, BitVec.toNat_ofNat, show nsPerSecond = 1000000000 from rfl, Nat.mod_eq_of_lt]
  omega

/-- A u8 result by its value (30_encoding.md R65). -/
theorem packU8_eq {b : Byte} {n : Nat} (h : b.toNat = n) : packU8 b = BitVec.ofNat 384 n := by
  subst h
  apply BitVec.eq_of_toNat_eq
  simp [packU8]

theorem packU8_or (a b : Byte) : packU8 (a ||| b) = packU8 a ||| packU8 b := by
  simp [packU8, BitVec.setWidth_or]

/-- Each byte of a packed value stands at its big-endian place (30_encoding.md R65). -/
theorem extractLsb'_memRead (p : Packet) (a n : Nat) (h : a + n ≤ 48) (k : Nat) (hk : k < n) :
    (BitVec.ofNat 384 (memRead p a n h)).extractLsb' (8 * (n - 1 - k)) 8 = byteAt p (a + k) (by omega) := by
  have hfit : memRead p a n h < 2 ^ 384 :=
    calc memRead p a n h < 256 ^ n := memRead_lt p a n h
      _ ≤ 256 ^ 48 := Nat.pow_le_pow_right (by decide) (by omega)
      _ = 2 ^ 384 := by rw [show (256 : Nat) = 2 ^ 8 from rfl, ← Nat.pow_mul]
  have hbyte := memRead_byte p a n h k hk
  apply BitVec.eq_of_toNat_eq
  rw [BitVec.extractLsb'_toNat, BitVec.toNat_ofNat, Nat.mod_eq_of_lt hfit, Nat.shiftRight_eq_div_pow, Nat.pow_mul]
  exact hbyte

end Sys2Proof.Machine
end

