-- ==== Sys2Proof/Laws/Decode.lean ====
section
/-! SUPPORT. The two fields of a command word. -/

namespace Sys2Proof

theorem opcodeOf_toNat (w : CmdWord) : (opcodeOf w).toNat = w.toNat / 256 := by
  have := w.isLt
  simp only [opcodeOf, BitVec.extractLsb'_toNat, Nat.shiftRight_eq_div_pow]
  omega

theorem imm8Of_toNat (w : CmdWord) : (imm8Of w).toNat = w.toNat % 256 := by
  simp [imm8Of, BitVec.extractLsb'_toNat]

/-- A word is its two fields. -/
theorem opcodeOf_append_imm8Of (w : CmdWord) : opcodeOf w ++ imm8Of w = w := by
  apply BitVec.eq_of_toNat_eq
  have hw := w.isLt
  rw [BitVec.toNat_append, opcodeOf_toNat, imm8Of_toNat,
    ← Nat.shiftLeft_add_eq_or_of_lt (i := 8) (Nat.mod_lt _ (by decide)), Nat.shiftLeft_eq]
  omega

theorem opcodeOf_append (a b : Byte) : opcodeOf (a ++ b) = a :=
  BitVec.extractLsb'_append_eq_left

theorem imm8Of_append (a b : Byte) : imm8Of (a ++ b) = b :=
  BitVec.extractLsb'_append_eq_right

theorem opcodeOf_encode (i : Instr) : opcodeOf (encode i) = i.opcode := opcodeOf_append _ _

theorem imm8Of_encode (i : Instr) : imm8Of (encode i) = BitVec.ofNat 8 i.immediate := imm8Of_append _ _

theorem imm8Of_encode_toNat {i : Instr} (h : i.WellFormed) : (imm8Of (encode i)).toNat = i.immediate := by
  rw [imm8Of_encode, BitVec.toNat_ofNat, Nat.mod_eq_of_lt (by simpa [Instr.WellFormed] using Nat.lt_succ_of_le h)]

theorem noOperand_ok_iff {i j : Instr} {w : CmdWord} : noOperand i w = .ok j ↔ imm8Of w = 0 ∧ i = j := by
  unfold noOperand
  split <;> simp_all

end Sys2Proof
end

