-- ==== Sys2Proof/Laws/PerInstr.lean ====
section
/-! SUPPORT. Statements made of every constructor of Instr, one lemma each.
EncodingFields: the word of a well-formed command holds the command's opcode in bits 15:8 and its immediate in bits 7:0
(30_encoding.md R61, R62). -/

namespace Sys2Proof.Laws.EncodingFields

def Statement (i : Instr) : Prop :=
  i.WellFormed → (encode i).toNat / 256 = i.opcode.toNat ∧ (encode i).toNat % 256 = i.immediate

theorem of_wellFormed (i : Instr) : Statement i := fun h =>
  ⟨by rw [← opcodeOf_toNat, opcodeOf_encode], by rw [← imm8Of_toNat, imm8Of_encode_toNat h]⟩

theorem create : Statement .create := of_wellFormed _
theorem setLeap (v : Nat) : Statement (.setLeap v) := of_wellFormed _
theorem setVersion (v : Nat) : Statement (.setVersion v) := of_wellFormed _
theorem setMode (v : Nat) : Statement (.setMode v) := of_wellFormed _
theorem getLeap : Statement .getLeap := of_wellFormed _
theorem getVersion : Statement .getVersion := of_wellFormed _
theorem getMode : Statement .getMode := of_wellFormed _
theorem getStratum : Statement .getStratum := of_wellFormed _
theorem getPoll : Statement .getPoll := of_wellFormed _
theorem getPrecision : Statement .getPrecision := of_wellFormed _
theorem getRootDelay : Statement .getRootDelay := of_wellFormed _
theorem getRootDispersion : Statement .getRootDispersion := of_wellFormed _
theorem getRefId : Statement .getRefId := of_wellFormed _
theorem getRefTs : Statement .getRefTs := of_wellFormed _
theorem getOriginTs : Statement .getOriginTs := of_wellFormed _
theorem getReceiveTs : Statement .getReceiveTs := of_wellFormed _
theorem getTransmitTs : Statement .getTransmitTs := of_wellFormed _
theorem serialize : Statement .serialize := of_wellFormed _
theorem deserialize : Statement .deserialize := of_wellFormed _

end Sys2Proof.Laws.EncodingFields
end

