-- ==== Sys2Proof/Laws/Step.lean ====
section
/-! SUPPORT. What a step can do, said once. -/

namespace Sys2Proof.Machine

theorem step_idle {s : State} (h : s.outstanding = false) : step s = hostTurn s := by
  simp [step, h]

theorem step_legal {s : State} {i : Instr} (h : s.outstanding = true) (hd : decode s.ports.cmd = .ok i) :
    step s = exec i s := by
  simp [step, h, fetchWord, hd]

theorem step_illegal {s : State} {e : DecodeError} (h : s.outstanding = true) (hd : decode s.ports.cmd = .error e) :
    step s = .next (s.respond .illegal 0) := by
  simp [step, h, fetchWord, hd, answerIllegal, raise_eq]

/-- Every command answers: it ends its transaction and leaves the ports, the build and the host's stream alone. -/
theorem exec_answers (i : Instr) (s : State) :
    ∃ st d b, exec i s = .next { s with buf := b, outstanding := false, response := some ⟨st, d⟩ } := by
  rcases exec_cases i s with ⟨_, _, _, h⟩ | ⟨_, _, _, _, _, _, h⟩ | ⟨_, _, h⟩ | ⟨_, h⟩ | ⟨_, _, h⟩ | ⟨_, _, _, _, _, _, h⟩ |
    ⟨_, _, _, h⟩ <;> exact ⟨_, _, _, h⟩

/-- The five kinds of step: wait, take a command, take a reset, answer an illegal word, perform a command. -/
theorem step_cases (s : State) :
    (s.outstanding = false ∧ s.hostStream = [] ∧ step s = .next s) ∨
    (s.outstanding = false ∧ ∃ r rest, s.hostStream = .command r :: rest ∧
      step s = .next { s with hostStream := rest, ports := r, outstanding := true, response := none }) ∨
    (s.outstanding = false ∧ ∃ rest, s.hostStream = .reset :: rest ∧
      step s = .next { s with hostStream := rest, buf := none, response := none }) ∨
    (s.outstanding = true ∧ (∃ e, decode s.ports.cmd = .error e) ∧ step s = .next (s.respond .illegal 0)) ∨
    (s.outstanding = true ∧ ∃ i, decode s.ports.cmd = .ok i ∧ step s = exec i s) := by
  cases ho : s.outstanding with
  | false =>
    rcases hostTurn_cases ho with ⟨h, e⟩ | ⟨r, rest, h, e⟩ | ⟨rest, h, e⟩
    · exact .inl ⟨rfl, h, (step_idle ho).trans e⟩
    · exact .inr (.inl ⟨rfl, r, rest, h, (step_idle ho).trans e⟩)
    · exact .inr (.inr (.inl ⟨rfl, rest, h, (step_idle ho).trans (e.trans (by rw [ho]))⟩))
  | true =>
    cases hd : decode s.ports.cmd with
    | error e => exact .inr (.inr (.inr (.inl ⟨rfl, ⟨e, rfl⟩, step_illegal ho hd⟩)))
    | ok i => exact .inr (.inr (.inr (.inr ⟨rfl, i, rfl, step_legal ho hd⟩)))

end Sys2Proof.Machine
end

