-- ==== Sys2Proof/Tests/Slice0.lean ====
section
/-! SUPPORT. Tests of single steps, with results transcribed from 95_test_vectors.md, and for every statement with
hypotheses a witness that meets them. -/

namespace Sys2Proof.Tests

open Sys2Proof.Machine

/-! ### Helpers -/

/-- A block of this build that holds this packet. -/
def held (fw : FlagWrite) (rs : RootScale) (p : Packet) : State :=
  { State.resetWith ⟨fw, rs⟩ with buf := some p }

/-- The packet whose first bytes are these, the rest 0. -/
def packet (bytes : List Byte) : Packet := loadPort bytes

/-- What a command answers. -/
def answer (i : Instr) (s : State) : Option Response := (nextOf (exec i s)).bind (·.response)

/-- The packet held after a command. -/
def bufAfter (i : Instr) (s : State) : Option Packet := (nextOf (exec i s)).bind (·.buf)

/-- The state with a request on the load port. -/
def loaded (n : Nat) (p : Packet) (s : State) : State := { s with ports := ⟨0x3100, n, p⟩ }

/-- The server reply of 95_test_vectors.md P2. -/
def reply : Packet := packet
  ([0x1c, 0x02, 0x06, 0xec, 0x00, 0x00, 0x12, 0x34, 0x00, 0x03, 0xc0, 0x00, 0xc0, 0xa8, 0x00, 0x01] ++
   [0xe9, 0x3c, 0x7e, 0xf0, 0x00, 0x00, 0x00, 0x00, 0x00, 0x00, 0x00, 0x00, 0x00, 0x00, 0x00, 0x00] ++
   [0xe9, 0x3c, 0x7f, 0x00, 0x80, 0x00, 0x00, 0x00, 0xe9, 0x3c, 0x7f, 0x00, 0x80, 0x00, 0x10, 0x00])

/-- A block holding that reply, built with the defaults. -/
def replied : State := held .or .rfc reply

/-- A block that has performed CREATE (95_test_vectors.md, notation: buf[0] = 0x1B, the rest 0). -/
def created (fw : FlagWrite) : State := held fw .rfc (packet [0x1B])

/-! ### Well-formedness: each check refuses an ill-formed term -/

theorem test_immediate_over_a_byte_is_ill_formed : ¬ (Instr.setLeap 256).WellFormed := by decide
theorem test_immediate_of_a_byte_is_well_formed : (Instr.setVersion 255).WellFormed := by decide
theorem test_length_over_the_port_is_ill_formed : ¬ (Request.mk 0x3100 65536 reply).WellFormed := by decide
theorem test_length_of_the_port_is_well_formed : (Request.mk 0x3100 65535 reply).WellFormed := by decide

/-! ### Decoding: the words of 30_encoding.md R64, bit by bit -/

theorem test_decode_create : decode 0b00000001_00000000 = .ok .create := by decide
theorem test_decode_setLeap : decode 0b00010000_00000011 = .ok (.setLeap 3) := by decide
theorem test_decode_setVersion : decode 0b00010001_00000100 = .ok (.setVersion 4) := by decide
theorem test_decode_setMode : decode 0b00010010_11111111 = .ok (.setMode 255) := by decide
theorem test_decode_getLeap : decode 0b00100000_00000000 = .ok .getLeap := by decide
theorem test_decode_getVersion : decode 0b00100001_00000000 = .ok .getVersion := by decide
theorem test_decode_getMode : decode 0b00100010_00000000 = .ok .getMode := by decide
theorem test_decode_getStratum : decode 0b00100011_00000000 = .ok .getStratum := by decide
theorem test_decode_getPoll : decode 0b00100100_00000000 = .ok .getPoll := by decide
theorem test_decode_getPrecision : decode 0b00100101_00000000 = .ok .getPrecision := by decide
theorem test_decode_getRootDelay : decode 0b00100110_00000000 = .ok .getRootDelay := by decide
theorem test_decode_getRootDispersion : decode 0b00100111_00000000 = .ok .getRootDispersion := by decide
theorem test_decode_getRefId : decode 0b00101000_00000000 = .ok .getRefId := by decide
theorem test_decode_getRefTs : decode 0b00101001_00000000 = .ok .getRefTs := by decide
theorem test_decode_getOriginTs : decode 0b00101010_00000000 = .ok .getOriginTs := by decide
theorem test_decode_getReceiveTs : decode 0b00101011_00000000 = .ok .getReceiveTs := by decide
theorem test_decode_getTransmitTs : decode 0b00101100_00000000 = .ok .getTransmitTs := by decide
theorem test_decode_serialize : decode 0b00110000_00000000 = .ok .serialize := by decide
theorem test_decode_deserialize : decode 0b00110001_00000000 = .ok .deserialize := by decide

/-- 95_test_vectors.md V8: illegal words. -/
theorem test_decode_rejects :
    decode 0x0000 = .error (.undefinedOpcode 0) ∧ decode 0x2001 = .error (.nonzeroImmediate 0x20 1) ∧
    decode 0x3101 = .error (.nonzeroImmediate 0x31 1) ∧ decode 0x0101 = .error (.nonzeroImmediate 1 1) ∧
    decode 0x1300 = .error (.undefinedOpcode 0x13) ∧ decode 0x2D00 = .error (.undefinedOpcode 0x2D) ∧
    decode 0xFF00 = .error (.undefinedOpcode 0xFF) := by decide

theorem test_decodeTableWord : decodeTableWord 16 0x1107 = some (.setVersion 7) ∧ decodeTableWord 16 0x2D00 = none := by
  decide

/-! ### Instructions, from the vectors of 95_test_vectors.md -/

/-- V7, P4: CREATE after reset and over a held packet. -/
theorem test_create : bufAfter .create State.reset = some (packet [0x1B]) ∧ bufAfter .create replied = some (packet [0x1B]) := by
  decide

/-- V2 SET_LEAP 3, P4 step 3 (SET_LEAP 2 over LI 1). -/
theorem test_setLeap : bufAfter (.setLeap 3) (created .assign) = some (packet [0xDB]) ∧
    bufAfter (.setLeap 2) (held .or .rfc (packet [0x5B])) = some (packet [0xDB]) ∧
    bufAfter (.setLeap 2) (held .assign .rfc (packet [0x5B])) = some (packet [0x9B]) := by decide

/-- V2 SET_LEAP 4. -/
theorem test_setLeap_range : answer (.setLeap 4) (created .or) = some ⟨.configError, 0⟩ := by decide

/-- V2 SET_VERSION 4 and 0. -/
theorem test_setVersion : bufAfter (.setVersion 4) (created .or) = some (packet [0x3B]) ∧
    bufAfter (.setVersion 4) (created .assign) = some (packet [0x23]) ∧
    bufAfter (.setVersion 0) (created .assign) = some (packet [0x03]) := by decide

/-- V8: SET_VERSION 9 with no packet, and SET_VERSION 8 after CREATE. -/
theorem test_setVersion_statuses : answer (.setVersion 9) State.reset = some ⟨.noPacket, 0⟩ ∧
    answer (.setVersion 8) (created .or) = some ⟨.configError, 0⟩ := by decide

/-- V2 SET_MODE 4 and 0. -/
theorem test_setMode : bufAfter (.setMode 4) (created .or) = some (packet [0x1F]) ∧
    bufAfter (.setMode 4) (created .assign) = some (packet [0x1C]) ∧
    bufAfter (.setMode 0) (created .assign) = some (packet [0x18]) := by decide

/-- V2's getter table, byte 0xE3. -/
theorem test_byte0_getters : answer .getLeap (held .or .rfc (packet [0xE3])) = some ⟨.ok, 3⟩ ∧
    answer .getVersion (held .or .rfc (packet [0xE3])) = some ⟨.ok, 4⟩ ∧
    answer .getMode (held .or .rfc (packet [0xE3])) = some ⟨.ok, 3⟩ := by decide

/-- P2, V3. -/
theorem test_getStratum : answer .getStratum replied = some ⟨.ok, 2⟩ ∧
    answer .getStratum (held .or .rfc (packet [0, 0xFF])) = some ⟨.ok, 255⟩ := by decide

/-- P2; V1 bytes 0x22 (first wrapped value) and 0x36 (last non-zero). -/
theorem test_getPoll : answer .getPoll replied = some ⟨.ok, 64000000000⟩ ∧
    answer .getPoll (held .or .rfc (packet [0, 0, 0x22])) = some ⟨.ok, 0xEE6B280000000000⟩ ∧
    answer .getPoll (held .or .rfc (packet [0, 0, 0x36])) = some ⟨.ok, 0x8000000000000000⟩ := by decide +kernel

/-- P2; V1 bytes 0xE3 (last non-zero) and 0x80 (shift by 128). -/
theorem test_getPrecision : answer .getPrecision replied = some ⟨.ok, 953⟩ ∧
    answer .getPrecision (held .or .rfc (packet [0, 0, 0, 0xE3])) = some ⟨.ok, 1⟩ ∧
    answer .getPrecision (held .or .rfc (packet [0, 0, 0, 0x80])) = some ⟨.ok, 0⟩ := by decide +kernel

/-- P2; V4 word 80 00 00 00, both scales. -/
theorem test_getRootDelay : answer .getRootDelay replied = some ⟨.ok, 71105957⟩ ∧
    answer .getRootDelay (held .or .rfc (packet [0, 0, 0, 0, 0x80])) = some ⟨.ok, 0xFFFFE2329B000000⟩ ∧
    answer .getRootDelay (held .or .legacy (packet [0, 0, 0, 0, 0x80])) = some ⟨.ok, 0xA4A62C4E00000000⟩ := by decide

/-- P2 in LEGACY; V4 word FF FF 80 00. -/
theorem test_getRootDispersion :
    answer .getRootDispersion (held .or .legacy reply) = some ⟨.ok, 3750000000000000000⟩ ∧
    answer .getRootDispersion (held .or .rfc (packet [0, 0, 0, 0, 0, 0, 0, 0, 0xFF, 0xFF, 0x80])) =
      some ⟨.ok, 0xFFFFFFFFE2329B00⟩ := by decide

/-- P2, V6. -/
theorem test_getRefId : answer .getRefId replied = some ⟨.ok, 0xC0A80001⟩ := by decide

/-- P2. -/
theorem test_getRefTs : answer .getRefTs replied = some ⟨.ok, 3913055984000000000⟩ := by decide

/-- P2; V5 fraction 5. -/
theorem test_getOriginTs : answer .getOriginTs replied = some ⟨.ok, 0⟩ ∧
    answer .getOriginTs (held .or .rfc (packet (List.replicate 31 0 ++ [5]))) = some ⟨.ok, 1⟩ := by decide

/-- P2. -/
theorem test_getReceiveTs : answer .getReceiveTs replied = some ⟨.ok, 3913056000500000000⟩ := by decide

/-- P2; V5's largest. -/
theorem test_getTransmitTs : answer .getTransmitTs replied = some ⟨.ok, 3913056000500000953⟩ ∧
    answer .getTransmitTs (held .or .rfc (packet (List.replicate 48 0xFF))) = some ⟨.ok, 0x3B9AC9FFFFFFFFFF⟩ := by decide

/-- V7: after CREATE; byte 0 in the top 8 bits and byte 47 in the bottom 8. -/
theorem test_serialize : (answer .serialize (created .or)).map (·.data.extractLsb' 376 8) = some 0x1B ∧
    (answer .serialize replied).map (·.data.extractLsb' 8 8) = some 0x10 ∧
    answer .serialize State.reset = some ⟨.noPacket, 0⟩ := by decide +kernel

/-- V7: lengths 47, 48 and 49. -/
theorem test_deserialize : bufAfter .deserialize (loaded 48 reply State.reset) = some reply ∧
    answer .deserialize (loaded 47 reply State.reset) = some ⟨.truncated, 0⟩ ∧
    bufAfter .deserialize (loaded 49 reply (created .or)) = some (packet [0x1B]) := by decide +kernel

/-- V8: an illegal word, over NO_PACKET. -/
theorem test_step_illegal :
    (nextOf (step (State.reset.withFetchWord 16 0x2001))).bind (·.response) = some ⟨.illegal, 0⟩ := by decide

/-- P1 step 1, as the first command after reset. -/
theorem test_step_create :
    (nextOf (step (State.reset.withFetchWord 16 0x0100))).bind (·.buf) = some (packet [0x1B]) := by decide

/-- P1 step 3 and P2's first line as text (30_encoding.md R70). -/
theorem test_assemble : assembleLine "SET_VERSION 4 ; v4".toList = .ok (some (plainRequest (.setVersion 4))) ∧
    assembleLine "SET_VERSION 0x04".toList = .ok (some (plainRequest (.setVersion 4))) ∧
    assembleLine "DESERIALIZE 1c 02 06ec  00".toList =
      .ok (some (dataRequest .deserialize [0x1c, 0x02, 0x06, 0xec, 0x00])) := ⟨rfl, rfl, rfl⟩

theorem test_assemble_refuses : assembleLine "SET_VERSION 256".toList = .error .badOperand ∧
    assembleLine "NOP".toList = .error .unknownMnemonic := ⟨rfl, rfl⟩

/-! ### Witnesses: each statement's hypotheses can be met together -/

/-- A DESERIALIZE word outstanding, with a packet on the load port. -/
def waiting (w : Nat) (s : State) : State := (loaded 48 reply s).withFetchWord 16 w

theorem witness_DecodeOfEncodeIsIdentity : (Instr.setMode 255).WellFormed ∧ (Instr.serialize).WellFormed := by decide
theorem witness_EncodeOfDecodeIsIdentity : decode 0x12FF = .ok (.setMode 255) := by decide
theorem witness_LegalWordsAreTheTablesAndOthersAnswerIllegal :
    (waiting 0x32FF replied).outstanding = true ∧ ¬ ∃ i, decode (waiting 0x32FF replied).ports.cmd = .ok i :=
  ⟨rfl, fun ⟨i, h⟩ => by
    have : decode (waiting 0x32FF replied).ports.cmd = .error (.undefinedOpcode 0x32) := by decide
    rw [this] at h; cases h⟩
theorem witness_AssembledLineCarriesTheEncodedCommand :
    (Instr.deserialize).WellFormed ∧ (Instr.setLeap 255).WellFormed ∧ 47 < 48 ∧ 47 < reply.toList.length := by decide
theorem witness_StepPerformsTheOutstandingCommand :
    (waiting 0x3100 replied).outstanding = true ∧ decode (waiting 0x3100 replied).ports.cmd = .ok .deserialize := by decide
theorem witness_IdleStepTakesTheHostsNextEvent :
    replied.outstanding = false ∧ replied.hostStream = [] ∧
    ({ replied with hostStream := [.command ⟨0x2000, 0, reply⟩, .reset] } : State).outstanding = false ∧
    ({ replied with hostStream := [.reset] } : State).outstanding = false := by decide
theorem witness_OverlappingCommandIsStuckUntilTheFirstCompletes : (waiting 0x2000 State.reset).outstanding = true := by
  decide
theorem witness_ResetBetweenCommandsLeavesNoPacket :
    replied.outstanding = false ∧ replied.valid = true ∧ (waiting 0x2000 replied).outstanding = true := by decide
theorem witness_EveryStateStepsAndAnswersItsCommand : (waiting 0x0000 replied).outstanding = true := by decide
theorem witness_StatusOtherThanOkChangesNothing :
    ∃ t, (waiting 0x1004 replied).outstanding = true ∧ step (waiting 0x1004 replied) = .next t ∧
      t.response = some ⟨.configError, 0⟩ ∧ Status.configError ≠ .ok :=
  ⟨_, rfl, rfl, rfl, by decide⟩
/-- Each rank of R206 is met: ILLEGAL, NO_PACKET, CONFIG_ERROR, TRUNCATED and OK. -/
theorem witness_StatusFollowsTheOrderOfChecks :
    expectedStatus 0x2001 false 0 = .illegal ∧ expectedStatus 0x1109 false 0 = .noPacket ∧
    expectedStatus 0x1004 true 0 = .configError ∧ expectedStatus 0x1108 true 0 = .configError ∧
    expectedStatus 0x1208 true 0 = .configError ∧ expectedStatus 0x3100 false 47 = .truncated ∧
    expectedStatus 0x1003 true 0 = .ok ∧ expectedStatus 0x0100 false 0 = .ok ∧
    (waiting 0x3100 State.reset).outstanding = true := by decide
theorem replied_inv : replied.Inv := by
  constructor <;> simp [replied, held]
theorem witness_StepKeepsTheTransactionInvariant : replied.Inv ∧ ∃ t, step replied = .next t := ⟨replied_inv, _, rfl⟩
theorem witness_StepKeepsTheBuildParameters : ∃ t, step (waiting 0x0100 replied) = .next t := ⟨_, rfl⟩
theorem witness_PacketAppearsAndDisappearsOnlyAsStated :
    (∃ t, step { replied with hostStream := [.reset] } = .next t ∧ replied.valid = true ∧ t.valid = false) ∧
    (∃ t, step (waiting 0x0100 State.reset) = .next t ∧ State.reset.valid = false ∧ t.valid = true) ∧
    (∃ t, step (waiting 0x3100 State.reset) = .next t ∧ t.valid = true) :=
  ⟨⟨_, rfl, rfl, rfl⟩, ⟨_, rfl, rfl, rfl⟩, ⟨_, rfl, rfl⟩⟩
theorem witness_PacketIsWrittenOnlyByItsWriters :
    ∃ t, exec (.setLeap 3) replied = .next t ∧ t.buf ≠ replied.buf := ⟨_, rfl, by decide⟩
theorem witness_StreamIsServedWholeAndInOrder :
    ({ replied with hostStream := [.command ⟨0x1103, 0, reply⟩, .reset, .command ⟨0x0100, 0, reply⟩] } : State).outstanding
      = false := rfl
theorem witness_CommandSeesOnlyPacketBuildAndItsOwnOperands :
    ∃ t₁ t₂, replied.params = (waiting 0x2000 replied).params ∧ replied.buf = (waiting 0x2000 replied).buf ∧
      exec .getLeap replied = .next t₁ ∧ exec .getLeap (waiting 0x2000 replied) = .next t₂ :=
  ⟨_, _, rfl, rfl, rfl, rfl⟩
/-- Two packets that agree on byte 1 alone. -/
theorem witness_ReaderSeesOnlyItsOwnBytes :
    Instr.getStratum ∈ readers ∧ (packet [1, 2, 3])[1] = (packet [7, 2, 9])[1] ∧
    (packet [1, 2, 3])[0] ≠ (packet [7, 2, 9])[0] ∧
    ∃ t₁ t₂, exec .getStratum (held .or .rfc (packet [1, 2, 3])) = .next t₁ ∧
      exec .getStratum (held .or .rfc (packet [7, 2, 9])) = .next t₂ :=
  ⟨by decide, by decide, by decide, _, _, rfl, rfl⟩
theorem witness_RepeatedCommandIsIdempotent : ∃ t, exec (.setMode 4) (created .or) = .next t := ⟨_, rfl⟩
theorem witness_ReadersFrame :
    Instr.serialize ∈ readers ∧ replied.buf = some reply ∧ ∃ t, exec .serialize replied = .next t :=
  ⟨by decide, rfl, _, rfl⟩
theorem witness_SettersFrame : replied.buf = some reply ∧ ∃ t, exec (setterOf .version 7) replied = .next t := ⟨rfl, _, rfl⟩
theorem witness_CreateAndDeserializeFrame :
    (∃ t, exec .create replied = .next t) ∧ (loaded 49 reply replied).ports.ldLen ≠ 48 ∧
    ∃ t, exec .deserialize (loaded 49 reply replied) = .next t :=
  ⟨⟨_, rfl⟩, by decide, _, rfl⟩
theorem witness_GettersAfterCreateReadTheDefaults : ∃ t, exec .create replied = .next t := ⟨_, rfl⟩
/-- The clauses of the three setter statements, at the boundaries of their ranges. -/
theorem witness_SetterStatements :
    State.reset.buf = none ∧ replied.buf = some reply ∧ (255 ≤ 255) ∧ (3 ≤ 3 ∧ 3 < 4) ∧ (7 ≤ 7 ∧ 7 < 8) := by decide
theorem witness_GetterStatements : State.reset.buf = none ∧ replied.buf = some reply := by decide
theorem witness_SetterLeavesTheOtherSubfields :
    ∃ t us ut, FlagField.leap ≠ FlagField.mode ∧ exec (setterOf .leap 3) replied = .next t ∧
      exec (getterOf .mode) replied = .next us ∧ exec (getterOf .mode) t = .next ut :=
  ⟨_, _, _, by decide, rfl, rfl, rfl⟩
theorem witness_GetterAfterSetterReadsTheWrittenValue :
    ∃ u₀, 3 ≤ FlagField.leap.maximum ∧ exec (getterOf .leap) replied = .next u₀ ∧ u₀.response = some ⟨.ok, 0⟩ :=
  ⟨_, by decide, rfl, by decide⟩
theorem witness_RepeatedSettersAccumulateOrReplace :
    ∃ u₀, (∀ x ∈ [1, 2], x ≤ FlagField.leap.maximum) ∧ 3 ≤ FlagField.leap.maximum ∧
      exec (getterOf .leap) replied = .next u₀ ∧ u₀.response = some ⟨.ok, 0⟩ :=
  ⟨_, by decide, by decide, rfl, by decide⟩
/-- Every range of exponents, at both its ends. -/
theorem witness_Log2DurationByRangeOfExponent :
    (0x01 : Byte).toInt = 1 ∧ (0x21 : Byte).toInt = 33 ∧ (0x22 : Byte).toInt = 34 ∧ (0x36 : Byte).toInt = 54 ∧
    (0x37 : Byte).toInt = 55 ∧ (0x7F : Byte).toInt = 127 ∧ (0x00 : Byte).toInt = 0 ∧ (0xFF : Byte).toInt = -1 ∧
    (0xF7 : Byte).toInt = -9 ∧ (0xF6 : Byte).toInt = -10 ∧ (0xE3 : Byte).toInt = -29 ∧ (0xE2 : Byte).toInt = -30 ∧
    (0x80 : Byte).toInt = -128 ∧ (held .or .rfc (packet [0, 0, 0x21, 0x80])).buf = some (packet [0, 0, 0x21, 0x80]) := by
  decide
/-- 10 s is outside the range where LEGACY is exact and 9 s inside it. -/
theorem witness_SixteenSixteenIsFlooredAndBounded :
    (fx16 .rfc 0x00090000).toInt ≤ 9223372036 ∧ 9223372036 < (fx16 .rfc 0x000A0000).toInt := by decide
theorem witness_ThirtyTwoThirtyTwoIsBoundedAndMonotone :
    ((1 : BitVec 32) ++ (5 : BitVec 32)).toNat ≤ ((1 : BitVec 32) ++ (9 : BitVec 32)).toNat ∧
    (1 : BitVec 32).toNat < (2 : BitVec 32).toNat := by decide
/-- The same eight bytes in the reference and the transmit field, and the same four in both root fields. -/
theorem witness_SameBytesSameAnswerInAnyField :
    (∀ k < 8, (packet (List.replicate 48 0xA5))[16 + k]? = (packet (List.replicate 40 0 ++ List.replicate 8 0xA5))[40 + k]?) ∧
    (∀ k < 4, (packet (List.replicate 48 0xA5))[4 + k]? = (packet (List.replicate 8 0 ++ List.replicate 4 0xA5))[8 + k]?) ∧
    (∃ t, exec .getRefTs replied = .next t) ∧ (∃ t, exec .getTransmitTs replied = .next t) ∧
    (∃ t, exec .getRootDelay replied = .next t) ∧ (∃ t, exec .getRootDispersion replied = .next t) :=
  ⟨by decide, by decide, ⟨_, rfl⟩, ⟨_, rfl⟩, ⟨_, rfl⟩, ⟨_, rfl⟩⟩
/-- Lengths 48 (taken), and 0, 47 and 49 (not). -/
theorem witness_DeserializeStatements :
    (loaded 48 reply State.reset).ports.ldLen = 48 ∧ (loaded 0 reply State.reset).ports.ldLen ≠ 48 ∧
    (loaded 47 reply State.reset).ports.ldLen ≠ 48 ∧ (loaded 49 reply State.reset).ports.ldLen ≠ 48 := by decide
theorem witness_ReferenceIdRoundTrips : (loaded 48 reply State.reset).ports.ldLen = 48 ∧ 3 < 4 := by decide
theorem witness_SerializeAndDeserializeRoundTrip :
    replied.buf = some reply ∧ ∃ d, answer .serialize replied = some ⟨.ok, d⟩ ∧
      (loaded 48 (unpackBytes48 d) State.reset).ports.ldLen = 48 := ⟨rfl, _, rfl, rfl⟩
theorem witness_MemReadAndMemWriteAreBigEndian : 44 + 4 ≤ 48 ∧ 0 + 48 ≤ 48 ∧ 47 < 48 := by decide
theorem witness_NoPacketComesBeforeTheCommandsOwnChecks :
    Instr.setVersion 9 ≠ .create ∧ Instr.setVersion 9 ≠ .deserialize ∧ State.reset.valid = false ∧
    answer (.setVersion 9) State.reset = some ⟨.noPacket, 0⟩ := by decide

end Sys2Proof.Tests
end

namespace Sys2Proof.Machine

/-! ### The value of byte 0 (20_memory.md R41) -/

/-- Where a mask stands once it is shifted down: over the field's low bits (41_bitfield_flags.md R90). -/
theorem mask_shifted (f : FlagField) : f.mask >>> f.shift = BitVec.ofNat 8 f.maximum := by
  cases f <;> rfl

/-- The maximum is all ones in some width that fits a byte (41_bitfield_flags.md R90). -/
theorem exists_maximum_eq_two_pow_sub_one (f : FlagField) : ∃ w ≤ 8, f.maximum = 2 ^ w - 1 := by
  cases f with
  | leap => exact ⟨2, by decide⟩
  | version => exact ⟨3, by decide⟩
  | mode => exact ⟨3, by decide⟩

/-- Masking and shifting is division and remainder: shifted down, the mask keeps the low bits. -/
theorem readSubfield_toNat (f : FlagField) (b : Byte) :
    (readSubfield f b).toNat = b.toNat / 2 ^ f.shift % (f.maximum + 1) := by
  obtain ⟨w, hw, hmax⟩ := exists_maximum_eq_two_pow_sub_one f
  have hfit : f.maximum % 2 ^ 8 = f.maximum := by cases f <;> rfl
  have hsucc : f.maximum + 1 = 2 ^ w := by have := Nat.two_pow_pos w; omega
  calc (readSubfield f b).toNat
      = (b.toNat >>> f.shift) &&& f.maximum := by
        rw [readSubfield, BitVec.ushiftRight_and_distrib, mask_shifted, BitVec.toNat_and, BitVec.toNat_ushiftRight,
          BitVec.toNat_ofNat, hfit]
    _ = b.toNat / 2 ^ f.shift % (f.maximum + 1) := by
        rw [hsucc, hmax, Nat.and_two_pow_sub_one_eq_mod, Nat.shiftRight_eq_div_pow]

theorem readSubfield_le_maximum (f : FlagField) (b : Byte) : (readSubfield f b).toNat ≤ f.maximum := by
  rw [readSubfield_toNat]
  exact Nat.le_of_lt_succ (Nat.mod_lt _ (Nat.succ_pos _))

/-- The three sub-fields at their positions make up the byte, with no bit left over. -/
theorem toNat_eq_subfields (b : Byte) :
    b.toNat = (readSubfield .leap b).toNat * 64 + (readSubfield .version b).toNat * 8 + (readSubfield .mode b).toNat := by
  have hb := b.isLt
  simp only [readSubfield_toNat, FlagField.shift, FlagField.maximum]
  omega

/-- A getter of byte 0 answers its sub-field's value, and that is all it does (41_bitfield_flags.md R94, R96, R98). -/
theorem exec_getter {s : State} {p : Packet} (h : s.buf = some p) (f : FlagField) :
    exec (getterOf f) s = .next (s.respond .ok (BitVec.ofNat 384 (readSubfield f p[0]).toNat)) := by
  rw [exec_reader (getterOf_mem_readers f) h, readerData_getter, packU8_eq rfl]
  rfl

/-- Settles O32: LI, VN and Mode are the three sub-fields of byte 0, each within its range, and the getters answer them. -/
theorem byteZeroIsItsThreeSubfields : Obligations.ByteZeroIsItsThreeSubfields := by
  unfold Obligations.ByteZeroIsItsThreeSubfields
  intro s p h
  exact ⟨(readSubfield .leap p[0]).toNat, (readSubfield .version p[0]).toNat, (readSubfield .mode p[0]).toNat,
    Nat.lt_succ_of_le (readSubfield_le_maximum .leap _), Nat.lt_succ_of_le (readSubfield_le_maximum .version _),
    Nat.lt_succ_of_le (readSubfield_le_maximum .mode _), toNat_eq_subfields _,
    exec_getter h .leap, exec_getter h .version, exec_getter h .mode⟩

end Sys2Proof.Machine

namespace Sys2Proof.Machine

/-! ### The packet CREATE builds (40_construction.md R80) -/

theorem byteAt_zeroPacket (k : Nat) (h : k < 48) : byteAt zeroPacket k h = 0#8 :=
  Vector.getElem_replicate h

/-- LI 0, VN 3 and Mode 3 at their positions: `0b00_011_011`. -/
theorem defaultByte0_eq : defaultByte0 = 0x1B#8 := by decide

theorem byteAt_defaultPacket_zero : byteAt defaultPacket 0 (by decide) = 0x1B#8 := by
  rw [defaultPacket, byteAt_writeByte_same, defaultByte0_eq]

/-- CREATE writes byte 0 alone over the zero octets. -/
theorem byteAt_defaultPacket_of_ne_zero (k : Nat) (h : k < 48) (hk : k ≠ 0) : byteAt defaultPacket k h = 0#8 := by
  rw [defaultPacket, byteAt_writeByte_other _ _ _ h hk.symm, byteAt_zeroPacket]

/-- Settles O26: CREATE ends in the same packet from every state, since it reads neither the held packet nor the
parameters. -/
theorem createBuildsTheDefaultRequest : Obligations.CreateBuildsTheDefaultRequest := by
  unfold Obligations.CreateBuildsTheDefaultRequest
  have hdecode : decode 0x0100#16 = .ok .create := by decide
  exact ⟨hdecode, fun s =>
    ⟨defaultPacket, exec_create s, byteAt_defaultPacket_zero, byteAt_defaultPacket_of_ne_zero⟩⟩

end Sys2Proof.Machine

namespace Sys2Proof.Machine

/-! ### The words of the setters (30_encoding.md R61, R64) -/

/-- Concatenation as arithmetic: the left part stands above the right one. -/
theorem toNat_append_eq_add {m n : Nat} (x : BitVec m) (y : BitVec n) : (x ++ y).toNat = x.toNat * 2 ^ n + y.toNat := by
  rw [BitVec.toNat_append, ← Nat.shiftLeft_add_eq_or_of_lt y.isLt, Nat.shiftLeft_eq]

/-- Adding an immediate to an opcode's first word puts it in the word's low byte (30_encoding.md R61). -/
theorem append_zero_add_imm8 (opcode : Byte) {v : Nat} (hv : v ≤ 255) :
    (opcode ++ 0#8) + BitVec.ofNat 16 v = opcode ++ BitVec.ofNat 8 v := by
  have hopcode := opcode.isLt
  apply BitVec.eq_of_toNat_eq
  simp only [toNat_append_eq_add, BitVec.toNat_add, BitVec.toNat_ofNat]
  omega

@[simp] theorem immediate_setterOf (f : FlagField) (v : Nat) : (setterOf f v).immediate = v := by
  cases f <;> rfl

theorem decode_encode_setter (f : FlagField) {v : Nat} (hv : v ≤ 255) :
    decode (encode (setterOf f v)) = .ok (setterOf f v) := by
  have himm : (imm8Of (encode (setterOf f v))).toNat = v := by
    rw [imm8Of_encode_toNat (by simpa [Instr.WellFormed] using hv), immediate_setterOf]
  rw [decode, opcodeOf_encode, himm]
  cases f <;> rfl

/-- Every immediate byte is legal behind a setter's opcode, in range of its field or not (30_encoding.md R67). -/
theorem decode_setterWord (f : FlagField) {v : Nat} (hv : v ≤ 255) {base : CmdWord}
    (hbase : base = (setterOf f v).opcode ++ 0#8) : decode (base + BitVec.ofNat 16 v) = .ok (setterOf f v) := by
  rw [hbase, append_zero_add_imm8 _ hv, ← decode_encode_setter f hv, encode, immediate_setterOf]

/-! ### Byte 0 after a setter (41_bitfield_flags.md R92) -/

/-- The OR write, with the shift as a multiplication. -/
theorem writeSubfield_or_eq (f : FlagField) (v : Nat) (b : Byte) :
    writeSubfield .or f v b = b ||| BitVec.ofNat 8 (v * 2 ^ f.shift) := by
  have hshift : operandByte v <<< f.shift = BitVec.ofNat 8 (v * 2 ^ f.shift) := by
    apply BitVec.eq_of_toNat_eq
    simp [operandByte, Nat.shiftLeft_eq]
  rw [writeSubfield, hshift]

/-- The ASSIGN write trades the sub-field's old value for the new one at its position, and keeps the rest of the byte. -/
theorem toNat_writeSubfield_assign {f : FlagField} {v : Nat} (hv : v ≤ f.maximum) (b : Byte) :
    (writeSubfield .assign f v b).toNat + (readSubfield f b).toNat * 2 ^ f.shift = b.toNat + v * 2 ^ f.shift := by
  have hfits : v < 2 ^ 8 := by cases f <;> simp only [FlagField.maximum] at hv <;> omega
  have hown : (readSubfield f (writeSubfield .assign f v b)).toNat = v := by
    rw [readSubfield_writeSubfield .assign hv, operandByte, BitVec.toNat_ofNat, Nat.mod_eq_of_lt hfits]
  have hother {g : FlagField} (hfg : f ≠ g) := readSubfield_writeSubfield_other .assign hfg hv b
  rw [toNat_eq_subfields (writeSubfield .assign f v b), toNat_eq_subfields b]
  cases f with
  | leap => rw [hown, hother (g := .version) (by decide), hother (g := .mode) (by decide), FlagField.shift]; omega
  | version => rw [hown, hother (g := .leap) (by decide), hother (g := .mode) (by decide), FlagField.shift]; omega
  | mode => rw [hown, hother (g := .leap) (by decide), hother (g := .version) (by decide), FlagField.shift]; omega

/-- A byte is the ASSIGN write when its value is the old one with the sub-field's value traded. -/
theorem writeSubfield_assign_eq_of_toNat {f : FlagField} {v : Nat} (hv : v ≤ f.maximum) {b c : Byte}
    (hc : c.toNat + b.toNat / 2 ^ f.shift % (f.maximum + 1) * 2 ^ f.shift = b.toNat + v * 2 ^ f.shift) :
    writeSubfield .assign f v b = c := by
  have hwrite := toNat_writeSubfield_assign hv b
  rw [readSubfield_toNat] at hwrite
  exact BitVec.eq_of_toNat_eq (Nat.add_right_cancel (hwrite.trans hc.symm))

/-- `{v[1:0], b[5:0]}` (41_bitfield_flags.md R93). -/
theorem writeSubfield_assign_leap {v : Nat} (hv : v ≤ 3) (b : Byte) :
    writeSubfield .assign .leap v b = BitVec.ofNat 2 v ++ b.extractLsb' 0 6 := by
  have hb := b.isLt
  apply writeSubfield_assign_eq_of_toNat hv
  simp only [toNat_append_eq_add, BitVec.extractLsb'_toNat, BitVec.toNat_ofNat, Nat.shiftRight_eq_div_pow,
    FlagField.shift, FlagField.maximum]
  omega

/-- `{b[7:6], v[2:0], b[2:0]}` (41_bitfield_flags.md R95). -/
theorem writeSubfield_assign_version {v : Nat} (hv : v ≤ 7) (b : Byte) :
    writeSubfield .assign .version v b = b.extractLsb' 6 2 ++ BitVec.ofNat 3 v ++ b.extractLsb' 0 3 := by
  have hb := b.isLt
  apply writeSubfield_assign_eq_of_toNat hv
  simp only [toNat_append_eq_add, BitVec.extractLsb'_toNat, BitVec.toNat_ofNat, Nat.shiftRight_eq_div_pow,
    FlagField.shift, FlagField.maximum]
  omega

/-- `{b[7:3], v[2:0]}` (41_bitfield_flags.md R97). -/
theorem writeSubfield_assign_mode {v : Nat} (hv : v ≤ 7) (b : Byte) :
    writeSubfield .assign .mode v b = b.extractLsb' 3 5 ++ BitVec.ofNat 3 v := by
  have hb := b.isLt
  apply writeSubfield_assign_eq_of_toNat hv
  simp only [toNat_append_eq_add, BitVec.extractLsb'_toNat, BitVec.toNat_ofNat, Nat.shiftRight_eq_div_pow,
    FlagField.shift, FlagField.maximum]
  omega

/-! ### The setters and the getters of byte 0 (41_bitfield_flags.md R91 to R98) -/

theorem exec_setter_invalid {s : State} (h : s.buf = none) (f : FlagField) (v : Nat) :
    exec (setterOf f v) s = .next (s.respond .noPacket 0) :=
  (exec_setter f v s).trans (setSubfield_invalid h f v)

theorem exec_setter_rejects {s : State} {p : Packet} (h : s.buf = some p) {f : FlagField} {v : Nat} (hv : f.maximum < v) :
    exec (setterOf f v) s = .next (s.respond .configError 0) :=
  (exec_setter f v s).trans (setSubfield_rejects h hv)

/-- A setter in range writes byte 0 alone; `c` is any spelling of the byte it writes. -/
theorem exec_setter_writes {s : State} {p : Packet} (h : s.buf = some p) {f : FlagField} {v : Nat} (hv : v ≤ f.maximum)
    {c : Byte} (hc : writeSubfield s.params.flagWrite f v p[0] = c) :
    exec (setterOf f v) s = .next ((s.setBuf (p.set 0 c)).respond .ok 0) := by
  subst hc
  exact (exec_setter f v s).trans (setSubfield_writes h hv)

/-- Settles O28, by the three cases every setter has. -/
theorem setLeapWritesTheLeapIndicator : Obligations.SetLeapWritesTheLeapIndicator := by
  unfold Obligations.SetLeapWritesTheLeapIndicator
  have hword : 0x1000#16 = 0x10#8 ++ 0#8 := by decide
  refine ⟨fun v hv => decode_setterWord .leap hv hword, fun s v h => exec_setter_invalid h .leap v,
    fun s p v h hv => exec_setter_rejects (f := .leap) h hv, fun s p v h hv => exec_setter_writes (f := .leap) h hv ?_⟩
  cases s.params.flagWrite with
  | or => exact writeSubfield_or_eq .leap v p[0]
  | assign => exact writeSubfield_assign_leap hv p[0]

/-- Settles O29, by the three cases every setter has. -/
theorem setVersionWritesTheVersion : Obligations.SetVersionWritesTheVersion := by
  unfold Obligations.SetVersionWritesTheVersion
  have hword : 0x1100#16 = 0x11#8 ++ 0#8 := by decide
  refine ⟨fun v hv => decode_setterWord .version hv hword, fun s v h => exec_setter_invalid h .version v,
    fun s p v h hv => exec_setter_rejects (f := .version) h hv, fun s p v h hv => exec_setter_writes (f := .version) h hv ?_⟩
  cases s.params.flagWrite with
  | or => exact writeSubfield_or_eq .version v p[0]
  | assign => exact writeSubfield_assign_version hv p[0]

/-- Settles O30, by the three cases every setter has; Mode stands at bit 0, so its operand is not shifted. -/
theorem setModeWritesTheMode : Obligations.SetModeWritesTheMode := by
  unfold Obligations.SetModeWritesTheMode
  have hword : 0x1200#16 = 0x12#8 ++ 0#8 := by decide
  refine ⟨fun v hv => decode_setterWord .mode hv hword, fun s v h => exec_setter_invalid h .mode v,
    fun s p v h hv => exec_setter_rejects (f := .mode) h hv, fun s p v h hv => exec_setter_writes (f := .mode) h hv ?_⟩
  cases s.params.flagWrite with
  | or => rw [writeSubfield_or_eq, FlagField.shift, Nat.pow_zero, Nat.mul_one]
  | assign => exact writeSubfield_assign_mode hv p[0]

/-- A byte-0 getter's answer, as the quotient and remainder of byte 0 its sub-field is. -/
theorem exec_getter_div_mod {s : State} {p : Packet} (h : s.buf = some p) (f : FlagField) :
    exec (getterOf f) s =
      .next (s.respond .ok (BitVec.ofNat 384 (p[0].toNat / 2 ^ f.shift % (f.maximum + 1)))) := by
  rw [exec_getter h, readSubfield_toNat]

/-- Settles O31: each getter answers its sub-field of byte 0; LI has the byte's top bits and Mode its lowest, so one needs
no remainder and the other no quotient. -/
theorem byteZeroGettersReadTheirBits : Obligations.ByteZeroGettersReadTheirBits := by
  unfold Obligations.ByteZeroGettersReadTheirBits
  have hreaders : ∀ i ∈ [Instr.getLeap, .getVersion, .getMode], i ∈ readers := by decide
  refine ⟨by decide, fun s h i hi => exec_reader_invalid (hreaders i hi) h, fun s p h => ⟨?_, ?_, ?_⟩⟩
  · have htop : p[0].toNat / 64 % 4 = p[0].toNat / 64 := Nat.mod_eq_of_lt (by have := p[0].isLt; omega)
    rw [← htop]
    exact exec_getter_div_mod h .leap
  · exact exec_getter_div_mod h .version
  · rw [← Nat.div_one p[0].toNat]
    exact exec_getter_div_mod h .mode

end Sys2Proof.Machine

namespace Sys2Proof.Machine

/-! ### The single-byte getters (42_byte_fields_log2.md R110, R112, R113) -/

theorem exec_getStratum {s : State} {p : Packet} (h : s.buf = some p) :
    exec .getStratum s = .next (s.respond .ok (packU8 p[1])) :=
  exec_reader (by decide) h

theorem exec_getPoll {s : State} {p : Packet} (h : s.buf = some p) :
    exec .getPoll s = .next (s.respond .ok (packDuration (log2dur p[2]))) :=
  exec_reader (by decide) h

theorem exec_getPrecision {s : State} {p : Packet} (h : s.buf = some p) :
    exec .getPrecision s = .next (s.respond .ok (packDuration (log2dur p[3]))) :=
  exec_reader (by decide) h

/-! ### The log2 converter by the sign of its exponent (42_byte_fields_log2.md R111) -/

/-- A left shift keeps the low 64 bits. -/
theorem log2dur_of_pos {b : Byte} (h : 0 < b.toInt) :
    log2dur b = BitVec.ofInt 64 (1000000000 * 2 ^ b.toInt.toNat) := by
  rw [log2dur, if_pos h, ofInt_wrap64s, nsPerSecond_int]

/-- A right shift rounds toward zero. -/
theorem log2dur_of_neg {b : Byte} (h : b.toInt < 0) :
    log2dur b = BitVec.ofNat 64 (1000000000 / 2 ^ (-b.toInt).toNat) := by
  rw [log2dur, if_neg h.asymm, if_pos h, nsPerSecond]

theorem log2dur_of_zero {b : Byte} (h : b.toInt = 0) : log2dur b = 1000000000#64 := by
  rw [log2dur, if_neg h.not_gt, if_neg h.not_lt, nsPerSecond]

/-- Settles O37: the two getters differ in the byte they hand to the converter, and the converter's count is that byte's
in each of the three cases of its sign. -/
theorem pollAndPrecisionShiftOneSecond : Obligations.PollAndPrecisionShiftOneSecond := by
  unfold Obligations.PollAndPrecisionShiftOneSecond
  have hreaders : ∀ i ∈ [Instr.getPoll, .getPrecision], i ∈ readers := by decide
  refine ⟨by decide, fun s h i hi => exec_reader_invalid (hreaders i hi) h, fun s p h x hx =>
    ⟨log2dur x.2, ?_, log2dur_of_pos, log2dur_of_neg, log2dur_of_zero⟩⟩
  simp only [List.mem_cons, List.not_mem_nil, or_false] at hx
  rcases hx with rfl | rfl
  · exact exec_getPoll h
  · exact exec_getPrecision h

/-- Settles O36: byte 1 is packed by its value, with no case on what it holds. -/
theorem getStratumReadsByteOne : Obligations.GetStratumReadsByteOne := by
  unfold Obligations.GetStratumReadsByteOne
  refine ⟨by decide, fun s h => exec_reader_invalid (by decide) h, fun s p h => ?_⟩
  rw [← packU8_eq rfl]
  exact exec_getStratum h

end Sys2Proof.Machine

namespace Sys2Proof.Machine

/-! ### The 16.16 converter by the bytes of its word (43_duration_16_16.md R130) -/

theorem fx16_rfc (w : BitVec 32) : fx16 .rfc w = BitVec.ofInt 64 (fx16Elapsed w) := rfl

/-- The LEGACY product keeps the low 64 bits. -/
theorem fx16_legacy (w : BitVec 32) : fx16 .legacy w = BitVec.ofInt 64 (fx16Elapsed w * 1000000000) := by
  rw [fx16, ofInt_wrap64s, nsPerSecond_int]

/-- The field's first byte carries the sign of the seconds; the fraction is never negative. -/
theorem fx16Elapsed_fieldWord (p : Packet) (a : Nat) (h : a + 4 ≤ 48) :
    fx16Elapsed (BitVec.ofNat 32 (fieldWord p a h)) =
      (p[a].toInt * 256 + p[a + 1].toNat) * 1000000000 +
        (p[a + 2].toNat * 256 + p[a + 3].toNat : Int) * 1000000000 / 65536 := by
  have hword : fieldWord p a h =
      p[a].toNat * 2 ^ 24 + p[a + 1].toNat * 2 ^ 16 + p[a + 2].toNat * 2 ^ 8 + p[a + 3].toNat := rfl
  have hsec := toInt_of_bytes (fx16_high_half p[a + 2].isLt p[a + 3].isLt p[a].isLt p[a + 1].isLt hword)
  have hfrac := fx16_low_half p[a + 2].isLt p[a + 3].isLt hword
  rw [fx16Elapsed, hsec, hfrac, nsPerSecond]
  push_cast
  rfl

/-! ### The root getters (43_duration_16_16.md R132, R133) -/

theorem exec_getRootDelay {s : State} {p : Packet} (h : s.buf = some p) :
    exec .getRootDelay s = .next
      (s.respond .ok (packDuration (fx16 s.params.rootScale (BitVec.ofNat 32 (fieldWord p 4 (by decide)))))) := by
  rw [exec_reader (by decide) h, readerData, memRead_four]

theorem exec_getRootDispersion {s : State} {p : Packet} (h : s.buf = some p) :
    exec .getRootDispersion s = .next
      (s.respond .ok (packDuration (fx16 s.params.rootScale (BitVec.ofNat 32 (fieldWord p 8 (by decide)))))) := by
  rw [exec_reader (by decide) h, readerData, memRead_four]

/-- A 16.16 answer by its elapsed nanoseconds, on either scale. -/
theorem packDuration_fx16 (scale : RootScale) (w : BitVec 32) :
    packDuration (fx16 scale w) =
      (BitVec.ofInt 64
        (match scale with | .rfc => fx16Elapsed w | .legacy => fx16Elapsed w * 1000000000)).setWidth 384 := by
  cases scale with
  | rfc => rw [packDuration, fx16_rfc]
  | legacy => rw [packDuration, fx16_legacy]

/-- Settles O39: the two getters differ in the field they hand to the converter, and the converter's count is given by
that field's four bytes. -/
theorem rootGettersConvertSixteenSixteen : Obligations.RootGettersConvertSixteenSixteen := by
  unfold Obligations.RootGettersConvertSixteenSixteen
  have hreaders : ∀ i ∈ [Instr.getRootDelay, .getRootDispersion], i ∈ readers := by decide
  refine ⟨by decide, fun s h i hi => exec_reader_invalid (hreaders i hi) h, fun s p h x hx => ?_⟩
  simp only [List.mem_cons, List.not_mem_nil, or_false] at hx
  rcases hx with rfl | rfl
  · rw [exec_getRootDelay h, packDuration_fx16, fx16Elapsed_fieldWord]
    rfl
  · rw [exec_getRootDispersion h, packDuration_fx16, fx16Elapsed_fieldWord]
    rfl

end Sys2Proof.Machine

namespace Sys2Proof.Machine

/-! ### The timestamp getters (44_timestamp_32_32.md R150, R152 to R155) -/

/-- The packed nanosecond count of a 32.32 field: the count fits the 64 bits, so nothing is cut off on its way to the
response port. -/
theorem packTimestamp_ts32_fieldWord (p : Packet) {a b : Nat} (ha : a + 4 ≤ 48) (hb : b + 4 ≤ 48) :
    packTimestamp (ts32 (BitVec.ofNat 32 (fieldWord p a ha)) (BitVec.ofNat 32 (fieldWord p b hb))) =
      BitVec.ofNat 384 (fieldWord p a ha * 1000000000 + fieldWord p b hb * 1000000000 / 2 ^ 32) := by
  rw [packTimestamp, ← BitVec.ofNat_toNat, ts32_toNat, BitVec.toNat_ofNat, BitVec.toNat_ofNat,
    Nat.mod_eq_of_lt (fieldWord_lt p a ha), Nat.mod_eq_of_lt (fieldWord_lt p b hb)]

/-- A reader whose data is the 32.32 conversion of the words at `a` and `b` answers their nanosecond count, and that is
all it does. -/
theorem exec_timestamp_reader {i : Instr} (hi : i ∈ readers) {s : State} {p : Packet} (h : s.buf = some p) {a b : Nat}
    (ha : a + 4 ≤ 48) (hb : b + 4 ≤ 48)
    (hdata : readerData i s.params.rootScale p =
      packTimestamp (ts32 (BitVec.ofNat 32 (memRead p a 4 ha)) (BitVec.ofNat 32 (memRead p b 4 hb)))) :
    exec i s = .next
      (s.respond .ok (BitVec.ofNat 384 (fieldWord p a ha * 1000000000 + fieldWord p b hb * 1000000000 / 2 ^ 32))) := by
  rw [exec_reader hi h, hdata, memRead_four, memRead_four, packTimestamp_ts32_fieldWord]

/-- Settles O41: the four getters differ only in the two words they hand to the converter. -/
theorem timestampGettersConvertThirtyTwoThirtyTwo : Obligations.TimestampGettersConvertThirtyTwoThirtyTwo := by
  unfold Obligations.TimestampGettersConvertThirtyTwoThirtyTwo
  have hreaders : ∀ i ∈ [Instr.getRefTs, .getOriginTs, .getReceiveTs, .getTransmitTs], i ∈ readers := by decide
  refine ⟨by decide, fun s h i hi => exec_reader_invalid (hreaders i hi) h, fun s p h x hx => ?_⟩
  simp only [List.mem_cons, List.not_mem_nil, or_false] at hx
  rcases hx with rfl | rfl | rfl | rfl
  · exact exec_timestamp_reader (i := .getRefTs) (by decide) h _ _ rfl
  · exact exec_timestamp_reader (i := .getOriginTs) (by decide) h _ _ rfl
  · exact exec_timestamp_reader (i := .getReceiveTs) (by decide) h _ _ rfl
  · exact exec_timestamp_reader (i := .getTransmitTs) (by decide) h _ _ rfl

end Sys2Proof.Machine

namespace Sys2Proof.Machine

/-! ### The reference clock ID (45_reference_id.md R170) -/

/-- GET_REFID answers the word of bytes 12 to 15 as it stands, with no converter and no case on what the bytes hold. -/
theorem exec_getRefId {s : State} {p : Packet} (h : s.buf = some p) :
    exec .getRefId s = .next (s.respond .ok (BitVec.ofNat 384 (fieldWord p 12 (by decide)))) := by
  rw [exec_reader (by decide) h, readerData, packBytes4, memRead_four]

/-- Settles O44: GET_REFID is a reader, so without a packet it has none to answer with, and with one it answers the
field's word. -/
theorem getRefIdReadsFourBytesUnchanged : Obligations.GetRefIdReadsFourBytesUnchanged := by
  unfold Obligations.GetRefIdReadsFourBytesUnchanged
  exact ⟨by decide, fun s h => exec_reader_invalid (by decide) h, fun s p h => exec_getRefId h⟩

end Sys2Proof.Machine

namespace Sys2Proof.Machine

/-! ### Packet transfer (46_transfer.md R182, R185) -/

/-- A bytes48 result holds byte `k` of the packet in bits `383-8k : 376-8k` (30_encoding.md R65). -/
theorem extractLsb'_packBytes48 (p : Packet) {k : Nat} (hk : k < 48) :
    (packBytes48 p).extractLsb' (376 - 8 * k) 8 = p[k] := by
  have hslot : 376 - 8 * k = 8 * (48 - 1 - k) := by omega
  rw [packBytes48, hslot, extractLsb'_memRead p 0 48 (by decide) k hk]
  simp only [byteAt, Nat.zero_add]

theorem exec_serialize {s : State} {p : Packet} (h : s.buf = some p) :
    exec .serialize s = .next (s.respond .ok (packBytes48 p)) :=
  exec_reader (by decide) h

/-- Settles O46: SERIALIZE is a reader, and the packed packet it answers holds each byte at its big-endian place. -/
theorem serializeOutputsThePacketBytes : Obligations.SerializeOutputsThePacketBytes := by
  unfold Obligations.SerializeOutputsThePacketBytes
  exact ⟨by decide, fun s h => exec_reader_invalid (by decide) h, fun s p h =>
    ⟨packBytes48 p, exec_serialize h, fun k hk => extractLsb'_packBytes48 p hk⟩⟩

/-- Settles O47: the length alone decides between the two ways DESERIALIZE can end; neither asks for a held packet. -/
theorem deserializeTakesExactlyFortyEightBytes : Obligations.DeserializeTakesExactlyFortyEightBytes := by
  unfold Obligations.DeserializeTakesExactlyFortyEightBytes
  exact ⟨by decide, fun s h => exec_deserialize_truncated h, fun s h => exec_deserialize_ok h⟩

end Sys2Proof.Machine

namespace Sys2Proof.Machine

/-! ### NO_PACKET (60_exceptions.md R203) -/

theorem exec_invalid {i : Instr} {s : State} (h : s.buf = none) (hcreate : i ≠ .create) (hdeserialize : i ≠ .deserialize) :
    exec i s = .next (s.respond .noPacket 0) := by
  rcases instr_kinds i with rfl | rfl | ⟨f, v, rfl⟩ | hi
  · exact absurd rfl hcreate
  · exact absurd rfl hdeserialize
  · exact exec_setter_invalid h f v
  · exact exec_reader_invalid hi h

theorem status_of_next_respond {r : StepResult} {s t : State} {st st' : Status} {d d' : RspData}
    (hr : r = .next (s.respond st d)) (ht : r = .next t) (hst : t.response = some ⟨st', d'⟩) : st' = st := by
  cases hr.symm.trans ht
  cases hst
  rfl

/-- Settles O50: every command that needs a packet checks for it first, and of the seven things a command can do only the
one that found no packet answers NO_PACKET. -/
theorem noPacketComesBeforeTheCommandsOwnChecks : Obligations.NoPacketComesBeforeTheCommandsOwnChecks := by
  unfold Obligations.NoPacketComesBeforeTheCommandsOwnChecks
  refine fun i s => ⟨fun hcreate hdeserialize hvalid => exec_invalid ((not_valid_iff_buf s).mp hvalid) hcreate hdeserialize,
    fun t d ht hst => ?_⟩
  rcases exec_cases i s with ⟨hb, hcreate, hdeserialize, _⟩ | ⟨_, _, _, _, _, _, hr⟩ | ⟨_, _, hr⟩ | ⟨_, hr⟩ | ⟨_, _, hr⟩ |
    ⟨_, _, _, _, _, _, hr⟩ | ⟨_, _, _, hr⟩
  · exact ⟨(not_valid_iff_buf s).mpr hb, hcreate, hdeserialize⟩
  all_goals exact nomatch status_of_next_respond hr ht hst

end Sys2Proof.Machine

namespace Sys2Proof.Machine

/-! ### The legal words (30_encoding.md R64, R67; 60_exceptions.md R205) -/

/-- The commands of formats N and D, in the order of the opcode map (30_encoding.md R62, R64). -/
def plainCommands : List Instr := .create :: (readers ++ [.deserialize])

def plainOpcodes : List Nat := plainCommands.map (·.opcode.toNat)

def setterOpcodes : List Nat := [FlagField.leap, .version, .mode].map fun f => (setterOf f 0).opcode.toNat

theorem setterOpcodes_eq : setterOpcodes = [0x10, 0x11, 0x12] := rfl

theorem plainOpcodes_eq :
    plainOpcodes = [0x01, 0x20, 0x21, 0x22, 0x23, 0x24, 0x25, 0x26, 0x27, 0x28, 0x29, 0x2A, 0x2B, 0x2C, 0x30, 0x31] := rfl

theorem immediate_of_mem_plainCommands {i : Instr} (hi : i ∈ plainCommands) : i.immediate = 0 := by
  revert i
  decide

theorem setter_or_plain (i : Instr) : (∃ f v, i = setterOf f v) ∨ i ∈ plainCommands := by
  rcases instr_kinds i with rfl | rfl | hi | hi
  · exact .inr (by decide)
  · exact .inr (by decide)
  · exact .inl hi
  · exact .inr (List.mem_cons_of_mem _ (List.mem_append_left _ hi))

theorem opcode_setterOf_mem (f : FlagField) (v : Nat) : (setterOf f v).opcode.toNat ∈ setterOpcodes := by
  cases f <;> simp [setterOf, Instr.opcode, setterOpcodes_eq]

/-- A setter's opcode makes any immediate its operand. -/
theorem decode_setter {w : CmdWord} {f : FlagField} (h : (opcodeOf w).toNat = (setterOf f 0).opcode.toNat) :
    decode w = .ok (setterOf f (imm8Of w).toNat) := by
  rw [decode, h]
  cases f <;> rfl

/-- Any other defined opcode asks for the immediate 0. -/
theorem decode_plain {w : CmdWord} {i : Instr} (hi : i ∈ plainCommands) (h : (opcodeOf w).toNat = i.opcode.toNat) :
    decode w = noOperand i w := by
  rw [decode, h]
  cases i with
  | setLeap v | setVersion v | setMode v => simp [plainCommands, readers] at hi
  | create | getLeap | getVersion | getMode | getStratum | getPoll | getPrecision | getRootDelay | getRootDispersion
  | getRefId | getRefTs | getOriginTs | getReceiveTs | getTransmitTs | serialize | deserialize => rfl

/-- A decoded word's two fields are the command's opcode and its immediate. -/
theorem fields_of_decode {w : CmdWord} {i : Instr} (h : decode w = .ok i) :
    w.toNat / 256 = i.opcode.toNat ∧ w.toNat % 256 = i.immediate := by
  rw [← opcodeOf_toNat, ← imm8Of_toNat]
  unfold decode at h
  split at h
  case h_2 hop | h_3 hop | h_4 hop =>
    cases h
    exact ⟨hop, rfl⟩
  case h_20 => cases h
  all_goals
    rename_i hop
    obtain ⟨himm, rfl⟩ := noOperand_ok_iff.mp h
    exact ⟨hop, congrArg BitVec.toNat himm⟩

theorem exists_decode_iff (w : CmdWord) :
    (∃ i, decode w = .ok i) ↔
      w.toNat / 256 ∈ setterOpcodes ∨ (w.toNat / 256 ∈ plainOpcodes ∧ w.toNat % 256 = 0) := by
  constructor
  · rintro ⟨i, h⟩
    obtain ⟨hop, himm⟩ := fields_of_decode h
    rw [hop, himm]
    rcases setter_or_plain i with ⟨f, v, rfl⟩ | hi
    · exact .inl (opcode_setterOf_mem f v)
    · exact .inr ⟨List.mem_map_of_mem hi, immediate_of_mem_plainCommands hi⟩
  · rw [← opcodeOf_toNat, ← imm8Of_toNat]
    rintro (hop | ⟨hop, himm⟩)
    · obtain ⟨f, _, hf⟩ := List.mem_map.mp hop
      exact ⟨_, decode_setter hf.symm⟩
    · obtain ⟨i, hi, hop⟩ := List.mem_map.mp hop
      exact ⟨i, (decode_plain hi hop.symm).trans (noOperand_ok_iff.mpr ⟨BitVec.eq_of_toNat_eq himm, rfl⟩)⟩

theorem step_undecodable {s : State} (ho : s.outstanding = true) (h : ¬ ∃ i, decode s.ports.cmd = .ok i) :
    step s = .next (s.respond .illegal 0) := by
  cases hd : decode s.ports.cmd with
  | error e => exact step_illegal ho hd
  | ok i => exact absurd ⟨i, hd⟩ h

/-- Settles O3: the decoder has one arm per row of the opcode map, and a step whose word it rejects performs no command. -/
theorem legalWordsAreTheTablesAndOthersAnswerIllegal : Obligations.LegalWordsAreTheTablesAndOthersAnswerIllegal := by
  unfold Obligations.LegalWordsAreTheTablesAndOthersAnswerIllegal
  rw [← setterOpcodes_eq, ← plainOpcodes_eq]
  exact ⟨exists_decode_iff, fun s ho h => step_undecodable ho h⟩

end Sys2Proof.Machine

namespace Sys2Proof.Machine

/-! ### The checks in their order, by the command (60_exceptions.md R206) -/

section expectedStatus
variable {w : CmdWord} {i : Instr} {f : FlagField} {v : Nat} (valid : Bool) (ldLen : Nat)

theorem expectedStatus_undecodable (h : ¬ ∃ i, decode w = .ok i) : expectedStatus w valid ldLen = .illegal := by
  rw [exists_decode_iff, setterOpcodes_eq, plainOpcodes_eq] at h
  exact if_pos h

/-- The checks after the first, over the fields of the decoded command. -/
theorem expectedStatus_of_decode (h : decode w = .ok i) :
    expectedStatus w valid ldLen =
      if valid = false ∧ i.opcode.toNat ≠ 0x01 ∧ i.opcode.toNat ≠ 0x31 then .noPacket
      else if (i.opcode.toNat = 0x10 ∧ 3 < i.immediate) ∨ (i.opcode.toNat = 0x11 ∧ 7 < i.immediate) ∨
        (i.opcode.toNat = 0x12 ∧ 7 < i.immediate) then .configError
      else if i.opcode.toNat = 0x31 ∧ ldLen ≠ 48 then .truncated
      else .ok := by
  have hlegal := (exists_decode_iff w).mp ⟨i, h⟩
  rw [setterOpcodes_eq, plainOpcodes_eq] at hlegal
  obtain ⟨hop, himm⟩ := fields_of_decode h
  rw [← hop, ← himm]
  exact if_neg (not_not.mpr hlegal)

theorem opcode_eq_create_iff : i.opcode.toNat = 0x01 ↔ i = .create := by
  cases i <;> simp [Instr.opcode]

theorem opcode_eq_deserialize_iff : i.opcode.toNat = 0x31 ↔ i = .deserialize := by
  cases i <;> simp [Instr.opcode]

theorem expectedStatus_invalid (h : decode w = .ok i) (hcreate : i ≠ .create) (hdeserialize : i ≠ .deserialize) :
    expectedStatus w false ldLen = .noPacket := by
  rw [expectedStatus_of_decode false ldLen h]
  exact if_pos ⟨rfl, opcode_eq_create_iff.not.mpr hcreate, opcode_eq_deserialize_iff.not.mpr hdeserialize⟩

theorem expectedStatus_setter (h : decode w = .ok (setterOf f v)) :
    expectedStatus w true ldLen = if f.maximum < v then .configError else .ok := by
  rw [expectedStatus_of_decode true ldLen h]
  cases f <;> simp [setterOf, Instr.opcode, Instr.immediate, FlagField.maximum] <;> rfl

theorem expectedStatus_create (h : decode w = .ok .create) : expectedStatus w valid ldLen = .ok := by
  simp [expectedStatus_of_decode valid ldLen h, Instr.opcode]

theorem expectedStatus_deserialize (h : decode w = .ok .deserialize) :
    expectedStatus w valid ldLen = if ldLen ≠ 48 then .truncated else .ok := by
  simp [expectedStatus_of_decode valid ldLen h, Instr.opcode]

theorem expectedStatus_reader (h : decode w = .ok i) (hi : i ∈ readers) : expectedStatus w true ldLen = .ok := by
  have hop : ∀ i ∈ readers, i.opcode.toNat ∉ [0x10, 0x11, 0x12, 0x31] := by decide
  have hop := hop i hi
  simp only [List.mem_cons, List.not_mem_nil, or_false, not_or] at hop
  simp [expectedStatus_of_decode true ldLen h, hop]

end expectedStatus

/-- A command answers the status its checks give, each of the seven things it can do under the check that leads to it. -/
theorem exec_status {i : Instr} {s : State} (h : decode s.ports.cmd = .ok i) :
    ∃ u d, exec i s = .next (State.respond u (expectedStatus s.ports.cmd s.valid s.ports.ldLen) d) ∧
      (expectedStatus s.ports.cmd s.valid s.ports.ldLen ≠ .ok → d = 0) := by
  rcases exec_cases i s with ⟨hb, hcreate, hdeserialize, e⟩ | ⟨f, v, p, rfl, hb, hv, e⟩ | ⟨rfl, hlen, e⟩ | ⟨rfl, e⟩ |
    ⟨rfl, hlen, e⟩ | ⟨f, v, p, rfl, hb, hv, e⟩ | ⟨hi, p, hb, e⟩
  · rw [(not_valid_iff_buf s).mpr hb, expectedStatus_invalid _ h hcreate hdeserialize]
    exact ⟨_, _, e, fun _ => rfl⟩
  · rw [(valid_iff_buf s).mpr ⟨p, hb⟩, expectedStatus_setter _ h, if_pos hv]
    exact ⟨_, _, e, fun _ => rfl⟩
  · rw [expectedStatus_deserialize _ _ h, if_pos hlen]
    exact ⟨_, _, e, fun _ => rfl⟩
  · rw [expectedStatus_create _ _ h]
    exact ⟨_, _, e, fun _ => rfl⟩
  · rw [expectedStatus_deserialize _ _ h, if_neg (not_not.mpr hlen)]
    exact ⟨_, _, e, fun _ => rfl⟩
  · rw [(valid_iff_buf s).mpr ⟨p, hb⟩, expectedStatus_setter _ h, if_neg (Nat.not_lt.mpr hv)]
    exact ⟨_, _, e, fun _ => rfl⟩
  · rw [(valid_iff_buf s).mpr ⟨p, hb⟩, expectedStatus_reader _ h hi]
    exact ⟨_, _, e, fun hne => absurd rfl hne⟩

theorem step_status {s : State} (ho : s.outstanding = true) :
    ∃ u d, step s = .next (State.respond u (expectedStatus s.ports.cmd s.valid s.ports.ldLen) d) ∧
      (expectedStatus s.ports.cmd s.valid s.ports.ldLen ≠ .ok → d = 0) := by
  by_cases h : ∃ i, decode s.ports.cmd = .ok i
  · obtain ⟨i, hd⟩ := h
    rw [step_legal ho hd]
    exact exec_status hd
  · rw [expectedStatus_undecodable _ _ h]
    exact ⟨s, 0, step_undecodable ho h, fun _ => rfl⟩

theorem respond_rspStatus (s : State) (st : Status) (d : RspData) : (s.respond st d).rspStatus = some st.code := rfl

/-- Settles O13: an illegal word is answered before any command is performed, and a legal one's command makes the other
checks in their order. -/
theorem statusFollowsTheOrderOfChecks : Obligations.StatusFollowsTheOrderOfChecks := by
  unfold Obligations.StatusFollowsTheOrderOfChecks
  intro s ho
  obtain ⟨u, d, hstep, hdata⟩ := step_status ho
  exact ⟨_, d, hstep, respond_response _ _ _, hdata, respond_rspStatus _ _ _⟩

end Sys2Proof.Machine

namespace Sys2Proof.Machine

/-! ### Decoding and encoding undo each other (30_encoding.md R61 to R64) -/

theorem decode_encode {i : Instr} (h : i.WellFormed) : decode (encode i) = .ok i := by
  rcases setter_or_plain i with ⟨f, v, rfl⟩ | hi
  · exact decode_encode_setter f (by simpa [Instr.WellFormed] using h)
  · have himm : imm8Of (encode i) = 0 := by rw [imm8Of_encode, immediate_of_mem_plainCommands hi]; rfl
    rw [decode_plain hi (congrArg BitVec.toNat (opcodeOf_encode i))]
    exact noOperand_ok_iff.mpr ⟨himm, rfl⟩

/-- The immediate byte bounds the operand, so nothing of it is lost on the way back. -/
theorem wellFormed_of_decode {w : CmdWord} {i : Instr} (h : decode w = .ok i) : i.WellFormed := by
  obtain ⟨-, himm⟩ := fields_of_decode h
  rw [Instr.WellFormed, ← himm]
  omega

theorem encode_of_decode {w : CmdWord} {i : Instr} (h : decode w = .ok i) : encode i = w := by
  obtain ⟨hop, himm⟩ := fields_of_decode h
  apply BitVec.eq_of_toNat_eq
  rw [encode, toNat_append_eq_add, BitVec.toNat_ofNat, ← hop, ← himm]
  omega

/-- Settles O1: a setter's operand is its immediate byte, and every other command's immediate byte is the 0 its format
asks for. -/
theorem decodeOfEncodeIsIdentity : Obligations.DecodeOfEncodeIsIdentity := by
  unfold Obligations.DecodeOfEncodeIsIdentity
  exact fun i h => decode_encode h

/-- Settles O2: the two fields of a legal word are the opcode and the immediate of the command it decodes to. -/
theorem encodeOfDecodeIsIdentity : Obligations.EncodeOfDecodeIsIdentity := by
  unfold Obligations.EncodeOfDecodeIsIdentity
  exact fun w i h => ⟨wellFormed_of_decode h, encode_of_decode h⟩

/-- Settles O4: the decoder evaluated at eleven words. -/
theorem decodeReadsWordsOfTheOpcodeMap : Obligations.DecodeReadsWordsOfTheOpcodeMap := by
  unfold Obligations.DecodeReadsWordsOfTheOpcodeMap
  decide

end Sys2Proof.Machine

namespace Sys2Proof.Machine

/-! ### The transaction invariant -/

theorem inv_of_unanswered {s : State} (h : s.response = none) : s.Inv where
  unanswered _ := h
  packed r hr := by simp [h] at hr
  completed r hr := by simp [h] at hr
  checked r hr := by simp [h] at hr
  empty r hr := by simp [h] at hr

/-- The invariant of a state that has just answered, by the status it answered. -/
theorem inv_respond {s : State} {st : Status} {d : RspData} (hpacked : st ≠ .ok → d = 0)
    (hheld : st = .ok ∨ st = .configError → s.valid = true) (hempty : st = .noPacket → s.valid = false) :
    (s.respond st d).Inv where
  unanswered ho := by simp at ho
  packed r hr := by cases hr; exact hpacked
  completed r hr hst := by cases hr; exact hheld (.inl hst)
  checked r hr hst := by cases hr; exact hheld (.inr hst)
  empty r hr := by cases hr; exact hempty

theorem next_inj {r : StepResult} {s t : State} (hs : r = .next s) (ht : r = .next t) : t = s := by
  cases hs.symm.trans ht
  rfl

/-- A command establishes the invariant from every state: each of the seven things it can do pairs the status with the
packet it found or left. -/
theorem inv_of_exec {i : Instr} {s t : State} (h : exec i s = .next t) : t.Inv := by
  rcases exec_cases i s with ⟨hb, _, _, e⟩ | ⟨_, _, p, _, hb, _, e⟩ | ⟨_, _, e⟩ | ⟨_, e⟩ | ⟨_, _, e⟩ |
    ⟨_, _, _, _, _, _, e⟩ | ⟨_, p, hb, e⟩
  all_goals obtain rfl := next_inj e h
  · exact inv_respond (fun _ => rfl) (by simp) (fun _ => (not_valid_iff_buf s).mpr hb)
  · exact inv_respond (fun _ => rfl) (fun _ => (valid_iff_buf s).mpr ⟨p, hb⟩) (by simp)
  · exact inv_respond (fun _ => rfl) (by simp) (by simp)
  · exact inv_respond (fun _ => rfl) (fun _ => rfl) (by simp)
  · exact inv_respond (fun _ => rfl) (fun _ => rfl) (by simp)
  · exact inv_respond (fun _ => rfl) (fun _ => rfl) (by simp)
  · exact inv_respond (by simp) (fun _ => (valid_iff_buf s).mpr ⟨p, hb⟩) (by simp)

theorem inv_of_step {s t : State} (hs : s.Inv) (h : step s = .next t) : t.Inv := by
  rcases step_cases s with ⟨_, _, e⟩ | ⟨_, r, rest, _, e⟩ | ⟨_, rest, _, e⟩ | ⟨_, _, e⟩ | ⟨_, i, _, e⟩
  · exact next_inj e h ▸ hs
  · exact next_inj e h ▸ inv_of_unanswered rfl
  · exact next_inj e h ▸ inv_of_unanswered rfl
  · exact next_inj e h ▸ inv_respond (fun _ => rfl) (by simp) (by simp)
  · exact inv_of_exec (e.symm.trans h)

/-- Settles O14: a step that takes an event leaves no response standing, and one that answers a command pairs its status
with the packet; only the waiting step needs the invariant before it. -/
theorem stepKeepsTheTransactionInvariant : Obligations.StepKeepsTheTransactionInvariant := by
  unfold Obligations.StepKeepsTheTransactionInvariant
  exact fun s t hs h => inv_of_step hs h

/-- Settles O15: no response stands after reset. -/
theorem resetHasTheTransactionInvariant : Obligations.ResetHasTheTransactionInvariant := by
  unfold Obligations.ResetHasTheTransactionInvariant
  exact ⟨inv_of_unanswered rfl, fun p => inv_of_unanswered rfl⟩

end Sys2Proof.Machine

namespace Sys2Proof.Machine

/-! ### Every state has a step (20_memory.md R52; 60_exceptions.md R207; 70_reset_and_hazards.md R230, R236) -/

/-- A step with a command outstanding answers it, and changes nothing else but the packet. -/
theorem step_answers {s : State} (ho : s.outstanding = true) :
    ∃ st d b, step s = .next { s with buf := b, outstanding := false, response := some ⟨st, d⟩ } := by
  cases hd : decode s.ports.cmd with
  | error e => exact ⟨_, _, _, step_illegal ho hd⟩
  | ok i =>
    rw [step_legal ho hd]
    exact exec_answers i s

/-- Settles O6: it is what a step does with a legal word. -/
theorem stepPerformsTheOutstandingCommand : Obligations.StepPerformsTheOutstandingCommand := by
  unfold Obligations.StepPerformsTheOutstandingCommand
  exact fun s i ho hd => step_legal ho hd

/-- Settles O7, by the three things the host can have queued. -/
theorem idleStepTakesTheHostsNextEvent : Obligations.IdleStepTakesTheHostsNextEvent := by
  unfold Obligations.IdleStepTakesTheHostsNextEvent
  intro s ho
  rw [step_idle ho]
  refine ⟨fun hl => ?_, fun r rest hl => ?_, fun rest hl => ?_⟩
  · simp only [hostTurn, hl]
  · simp only [hostTurn, hl]
    exact present_idle (s := { s with hostStream := rest }) ho r
  · simp only [hostTurn, hl]
    exact applyReset_idle (s := { s with hostStream := rest }) ho

/-- Settles O9: the reset operation asks first whether a command is outstanding. -/
theorem resetBetweenCommandsLeavesNoPacket : Obligations.ResetBetweenCommandsLeavesNoPacket := by
  unfold Obligations.ResetBetweenCommandsLeavesNoPacket
  exact ⟨fun s ho => ⟨_, applyReset_idle ho, rfl, rfl, rfl, rfl, ho⟩, fun s ho => applyReset_outstanding ho,
    fun p => ⟨rfl, rfl, rfl⟩⟩

/-- Settles O8: the first command's step ends the transaction, which is all that kept the second from being presented. -/
theorem overlappingCommandIsStuckUntilTheFirstCompletes :
    Obligations.OverlappingCommandIsStuckUntilTheFirstCompletes := by
  unfold Obligations.OverlappingCommandIsStuckUntilTheFirstCompletes
  intro s r ho
  obtain ⟨st, d, b, hstep⟩ := step_answers ho
  exact ⟨present_outstanding ho r, _, hstep, rfl, rfl, rfl, _, present_idle rfl r, rfl, rfl⟩

/-- Settles O11: an idle state takes its host's turn, and any other answers its command. -/
theorem everyStateStepsAndAnswersItsCommand : Obligations.EveryStateStepsAndAnswersItsCommand := by
  unfold Obligations.EveryStateStepsAndAnswersItsCommand
  intro s
  cases ho : s.outstanding with
  | true =>
    obtain ⟨st, d, b, hstep⟩ := step_answers ho
    exact ⟨_, hstep, fun _ => ⟨rfl, rfl, rfl⟩⟩
  | false =>
    obtain ⟨t, hturn⟩ : ∃ t, hostTurn s = .next t := by
      rcases hostTurn_cases ho with ⟨_, e⟩ | ⟨_, _, _, e⟩ | ⟨_, _, e⟩ <;> exact ⟨_, e⟩
    exact ⟨t, (step_idle ho).trans hturn, fun h => nomatch h⟩

/-! ### What a command and a step leave alone (00_scope.md R5, R10; 10_state.md R21, R26; 20_memory.md R47) -/

/-- The frame of every command. -/
theorem exec_frame {i : Instr} {s t : State} (h : exec i s = .next t) :
    t.params = s.params ∧ t.ports = s.ports ∧ t.hostStream = s.hostStream := by
  obtain ⟨st, d, b, e⟩ := exec_answers i s
  cases next_inj e h
  exact ⟨rfl, rfl, rfl⟩

theorem setBuf_held {s : State} {p : Packet} (h : s.buf = some p) : s.setBuf p = s := by
  rw [State.setBuf, ← h]

/-- The two ways a command can end: with an error and nothing changed, or with OK and a packet held. -/
theorem exec_raises_or_returns (i : Instr) (s : State) :
    (∃ st, st ≠ .ok ∧ exec i s = .next (s.respond st 0)) ∨
      ∃ p d, exec i s = .next ((s.setBuf p).respond .ok d) := by
  rcases exec_cases i s with ⟨_, _, _, e⟩ | ⟨_, _, _, _, _, _, e⟩ | ⟨_, _, e⟩ | ⟨_, e⟩ | ⟨_, _, e⟩ |
    ⟨_, _, _, _, _, _, e⟩ | ⟨_, p, hb, e⟩
  · exact .inl ⟨_, by decide, e⟩
  · exact .inl ⟨_, by decide, e⟩
  · exact .inl ⟨_, by decide, e⟩
  · exact .inr ⟨_, _, e⟩
  · exact .inr ⟨_, _, e⟩
  · exact .inr ⟨_, _, e⟩
  · exact .inr ⟨p, _, by rw [setBuf_held hb, e]⟩

theorem exec_error_frame {i : Instr} {s t : State} {r : Response} (h : exec i s = .next t) (hr : t.response = some r)
    (hst : r.status ≠ .ok) : t = s.respond r.status 0 := by
  rcases exec_raises_or_returns i s with ⟨st, -, e⟩ | ⟨p, d, e⟩
  · cases next_inj e h
    cases hr
    rfl
  · cases next_inj e h
    cases hr
    exact absurd rfl hst

/-- Settles O12: an illegal word's answer and every command's error end the transaction with the state untouched. -/
theorem statusOtherThanOkChangesNothing : Obligations.StatusOtherThanOkChangesNothing := by
  unfold Obligations.StatusOtherThanOkChangesNothing
  intro s t r ho h hr hst
  cases hd : decode s.ports.cmd with
  | error e =>
    obtain rfl := next_inj (step_illegal ho hd) h
    cases hr
    rfl
  | ok i => exact exec_error_frame ((step_legal ho hd).symm.trans h) hr hst

/-- Settles O16: the host's turn writes other fields, and the parameters stand in every command's frame. -/
theorem stepKeepsTheBuildParameters : Obligations.StepKeepsTheBuildParameters := by
  unfold Obligations.StepKeepsTheBuildParameters
  intro s t h
  rcases step_cases s with ⟨_, _, e⟩ | ⟨_, _, _, _, e⟩ | ⟨_, _, _, e⟩ | ⟨_, _, e⟩ | ⟨_, _, _, e⟩
  · cases next_inj e h; rfl
  · cases next_inj e h; rfl
  · cases next_inj e h; rfl
  · cases next_inj e h; rfl
  · obtain ⟨hparams, -, -⟩ := exec_frame (e.symm.trans h)
    exact hparams

theorem exec_keeps_valid {i : Instr} {s t : State} (h : exec i s = .next t) (hs : s.valid = true) : t.valid = true := by
  rcases exec_raises_or_returns i s with ⟨st, -, e⟩ | ⟨p, d, e⟩
  · rwa [next_inj e h, respond_valid]
  · rw [next_inj e h, respond_valid, setBuf_valid]

/-- What can bring a packet where there was none. -/
theorem exec_brings_valid {i : Instr} {s t : State} (h : exec i s = .next t) (hs : s.valid = false) (ht : t.valid = true) :
    i = .create ∨ (i = .deserialize ∧ s.ports.ldLen = 48) := by
  by_cases hcreate : i = .create
  · exact .inl hcreate
  by_cases hdeserialize : i = .deserialize
  · refine .inr ⟨hdeserialize, by_contra fun hlen => ?_⟩
    subst hdeserialize
    rw [next_inj (exec_deserialize_truncated hlen) h, respond_valid, hs] at ht
    exact nomatch ht
  · rw [next_inj (exec_invalid ((not_valid_iff_buf s).mp hs) hcreate hdeserialize) h, respond_valid, hs] at ht
    exact nomatch ht

/-- Settles O17: of the five kinds of step the reset alone drops a packet, and a command alone brings one. -/
theorem packetAppearsAndDisappearsOnlyAsStated : Obligations.PacketAppearsAndDisappearsOnlyAsStated := by
  unfold Obligations.PacketAppearsAndDisappearsOnlyAsStated
  intro s t h
  have hkept (hv : t.valid = s.valid) {P Q : Prop} :
      (s.valid = true → t.valid = false → P) ∧ (s.valid = false → t.valid = true → Q) :=
    ⟨fun hs ht => absurd (ht.symm.trans (hv.trans hs)) Bool.false_ne_true,
      fun hs ht => absurd (hs.symm.trans (hv.symm.trans ht)) Bool.false_ne_true⟩
  rcases step_cases s with ⟨_, _, e⟩ | ⟨_, _, _, _, e⟩ | ⟨ho, rest, hl, e⟩ | ⟨_, _, e⟩ | ⟨ho, i, hd, e⟩
  · exact hkept (by cases next_inj e h; rfl)
  · exact hkept (by cases next_inj e h; rfl)
  · refine ⟨fun _ _ => ⟨ho, rest, hl⟩, fun _ ht => ?_⟩
    rw [next_inj e h] at ht
    exact nomatch ht
  · exact hkept (by cases next_inj e h; rfl)
  · have hexec := e.symm.trans h
    refine ⟨fun hs ht => ?_, fun hs ht => ⟨ho, ?_⟩⟩
    · exact absurd (ht.symm.trans (exec_keeps_valid hexec hs)) Bool.false_ne_true
    · rw [hd, Except.ok.injEq, Except.ok.injEq]
      exact exec_brings_valid hexec hs ht

end Sys2Proof.Machine

namespace Sys2Proof.Machine

/-! ### What a command writes (20_memory.md R47) -/

/-- A setter either raises or writes its in-range operand into byte 0. -/
theorem exec_setter_raises_or_writes (f : FlagField) (v : Nat) (s : State) :
    (∃ st, exec (setterOf f v) s = .next (s.respond st 0)) ∨
      ∃ p, s.buf = some p ∧ v ≤ f.maximum ∧
        exec (setterOf f v) s = .next ((s.setBuf (writeByte p 0
          (writeSubfield s.params.flagWrite f v (byteAt p 0 (by decide))) (by decide))).respond .ok 0) := by
  cases hb : s.buf with
  | none => exact .inl ⟨_, exec_setter_invalid hb f v⟩
  | some p =>
    rcases Nat.lt_or_ge f.maximum v with hv | hv
    · exact .inl ⟨_, exec_setter_rejects hb hv⟩
    · exact .inr ⟨p, rfl, hv, (exec_setter f v s).trans (setSubfield_writes hb hv)⟩

/-- A reading command touches nothing but its transaction. -/
theorem exec_reader_responds {i : Instr} (hi : i ∈ readers) (s : State) :
    ∃ st d, exec i s = .next (s.respond st d) := by
  cases hb : s.buf with
  | none => exact ⟨_, _, exec_reader_invalid hi hb⟩
  | some p => exact ⟨_, _, exec_reader hi hb⟩

/-- Settles O18: CREATE and DESERIALIZE may replace the packet, a setter writes its byte 0, and a reading command has
nothing to write. -/
theorem packetIsWrittenOnlyByItsWriters : Obligations.PacketIsWrittenOnlyByItsWriters := by
  unfold Obligations.PacketIsWrittenOnlyByItsWriters
  intro i s t h hne
  rcases instr_kinds i with hi | hi | ⟨f, v, rfl⟩ | hi
  · exact .inl hi
  · exact .inr (.inl hi)
  · rcases exec_setter_raises_or_writes f v s with ⟨st, e⟩ | ⟨p, hb, -, e⟩
    · exact absurd (by rw [next_inj e h, respond_buf]) hne
    · refine .inr (.inr ⟨⟨f, v, rfl⟩, p, _, hb, by rw [next_inj e h, respond_buf, setBuf_buf], fun k hk hk0 => ?_⟩)
      exact byteAt_writeByte_other p _ (by decide) hk hk0.symm
  · obtain ⟨st, d, e⟩ := exec_reader_responds hi s
    exact absurd (by rw [next_inj e h, respond_buf]) hne

/-- Settles O23: a reading command's next state is the one before it with a response. -/
theorem readersFrame : Obligations.ReadersFrame := by
  unfold Obligations.ReadersFrame
  intro i hi s t h
  obtain ⟨st, d, e⟩ := exec_reader_responds hi s
  rw [next_inj e h]
  exact ⟨rfl, rfl, rfl, rfl, fun p hb => ⟨p, hb, fun _ _ => rfl⟩⟩

/-- Settles O24: a setter that raises keeps the whole packet, and one that writes keeps every byte but byte 0. -/
theorem settersFrame : Obligations.SettersFrame := by
  unfold Obligations.SettersFrame
  intro f v s t h
  rcases exec_setter_raises_or_writes f v s with ⟨st, e⟩ | ⟨p, hb, -, e⟩
  · rw [next_inj e h]
    exact ⟨rfl, rfl, rfl, rfl, fun p hb => ⟨p, hb, fun _ _ _ => rfl⟩⟩
  · rw [next_inj e h]
    refine ⟨rfl, rfl, rfl, ((valid_iff_buf s).mpr ⟨p, hb⟩).symm, fun q hq => ⟨_, rfl, fun k hk hk0 => ?_⟩⟩
    cases hb.symm.trans hq
    exact byteAt_writeByte_other p _ (by decide) hk (by omega)

/-- Settles O25: both keep the frame of every command, and a DESERIALIZE of another length raises. -/
theorem createAndDeserializeFrame : Obligations.CreateAndDeserializeFrame := by
  unfold Obligations.CreateAndDeserializeFrame
  intro i s t _ h
  obtain ⟨hparams, hports, hstream⟩ := exec_frame h
  refine ⟨hparams, hports, hstream, fun hi hlen => ?_⟩
  subst hi
  rw [next_inj (exec_deserialize_truncated hlen) h, respond_buf]

/-- Settles O22: an error repeats because nothing changed, CREATE and DESERIALIZE write what does not depend on the packet
before, and a setter's second write is absorbed by its first. -/
theorem repeatedCommandIsIdempotent : Obligations.RepeatedCommandIsIdempotent := by
  unfold Obligations.RepeatedCommandIsIdempotent
  intro i s t h
  rcases exec_cases i s with ⟨hb, hcreate, hdeserialize, e⟩ | ⟨f, v, p, rfl, hb, hv, e⟩ | ⟨rfl, hlen, e⟩ | ⟨rfl, e⟩ |
    ⟨rfl, hlen, e⟩ | ⟨f, v, p, rfl, hb, hv, e⟩ | ⟨hi, p, hb, e⟩
  all_goals obtain rfl := next_inj e h
  · exact exec_invalid hb hcreate hdeserialize
  · exact exec_setter_rejects hb hv
  · exact exec_deserialize_truncated hlen
  · exact exec_create _
  · exact exec_deserialize_ok hlen
  · rw [exec_setter, setSubfield_writes (p := writeByte p 0 _ (by decide)) rfl hv, byteAt_writeByte_same,
      writeByte_writeByte]
    simp only [respond_params, setBuf_params, writeSubfield_idem _ hv]
    rfl
  · exact exec_reader hi hb

end Sys2Proof.Machine

namespace Sys2Proof.Machine

/-! ### What a command depends on (00_scope.md R2; 20_memory.md R47; 30_encoding.md R69) -/

/-- A command does to the packet, and answers, the same in any two states that hold the same build, the same packet and,
for DESERIALIZE, the same load port. -/
theorem exec_congr {i : Instr} {s₁ s₂ : State} (hparams : s₁.params = s₂.params) (hbuf : s₁.buf = s₂.buf)
    (hload : i = .deserialize → s₁.ports.ldLen = s₂.ports.ldLen ∧ s₁.ports.ldData = s₂.ports.ldData) :
    ∃ b r, exec i s₁ = .next { s₁ with buf := b, outstanding := false, response := some r } ∧
      exec i s₂ = .next { s₂ with buf := b, outstanding := false, response := some r } := by
  rcases exec_cases i s₁ with ⟨hb, hcreate, hdeserialize, e⟩ | ⟨f, v, p, rfl, hb, hv, e⟩ | ⟨rfl, hlen, e⟩ | ⟨rfl, e⟩ |
    ⟨rfl, hlen, e⟩ | ⟨f, v, p, rfl, hb, hv, e⟩ | ⟨hi, p, hb, e⟩
  · refine ⟨_, _, e, ?_⟩
    rw [hbuf]
    exact exec_invalid (hbuf ▸ hb) hcreate hdeserialize
  · refine ⟨_, _, e, ?_⟩
    rw [hbuf]
    exact exec_setter_rejects (hbuf ▸ hb) hv
  · obtain ⟨hlen₂, -⟩ := hload rfl
    refine ⟨_, _, e, ?_⟩
    rw [hbuf]
    exact exec_deserialize_truncated (hlen₂ ▸ hlen)
  · exact ⟨_, _, e, exec_create s₂⟩
  · obtain ⟨hlen₂, hdata⟩ := hload rfl
    refine ⟨_, _, e, ?_⟩
    rw [hdata]
    exact exec_deserialize_ok (hlen₂ ▸ hlen)
  · refine ⟨_, _, e, ?_⟩
    rw [hparams]
    exact (exec_setter f v s₂).trans (setSubfield_writes (hbuf ▸ hb) hv)
  · refine ⟨_, _, e, ?_⟩
    rw [hparams, hbuf]
    exact exec_reader hi (hbuf ▸ hb)

/-- Settles O20: it is how `exec_congr` reads when both next states are known. -/
theorem commandSeesOnlyPacketBuildAndItsOwnOperands : Obligations.CommandSeesOnlyPacketBuildAndItsOwnOperands := by
  unfold Obligations.CommandSeesOnlyPacketBuildAndItsOwnOperands
  intro i s₁ s₂ t₁ t₂ hparams hbuf hload h₁ h₂
  obtain ⟨b, r, e₁, e₂⟩ := exec_congr hparams hbuf hload
  rw [next_inj e₁ h₁, next_inj e₂ h₂]
  exact ⟨rfl, rfl⟩

/-- A reading command packs the bytes it reads and no other. -/
theorem readerData_congr (i : Instr) (scale : RootScale) {p q : Packet}
    (h : ∀ (k : Nat) (hk : k < 48), (bytesRead i).1 ≤ k → k < (bytesRead i).1 + (bytesRead i).2 →
      byteAt p k hk = byteAt q k hk) : readerData i scale p = readerData i scale q := by
  have hread (a n : Nat) (hn : a + n ≤ 48) (ha : (bytesRead i).1 ≤ a)
      (hend : a + n ≤ (bytesRead i).1 + (bytesRead i).2) : memRead p a n hn = memRead q a n hn :=
    memRead_congr p q a a n hn hn fun k hk => h (a + k) (by omega) (by omega) (by omega)
  cases i with
  | create | setLeap | setVersion | setMode | deserialize => rfl
  | getLeap | getVersion | getMode => simp only [readerData, h 0 (by decide) (by decide) (by decide)]
  | getStratum => simp only [readerData, h 1 (by decide) (by decide) (by decide)]
  | getPoll => simp only [readerData, h 2 (by decide) (by decide) (by decide)]
  | getPrecision => simp only [readerData, h 3 (by decide) (by decide) (by decide)]
  | getRootDelay => simp only [readerData, hread 4 4 (by decide) (by decide) (by decide)]
  | getRootDispersion => simp only [readerData, hread 8 4 (by decide) (by decide) (by decide)]
  | getRefId => simp only [readerData, packBytes4, hread 12 4 (by decide) (by decide) (by decide)]
  | getRefTs =>
    simp only [readerData, hread 16 4 (by decide) (by decide) (by decide), hread 20 4 (by decide) (by decide) (by decide)]
  | getOriginTs =>
    simp only [readerData, hread 24 4 (by decide) (by decide) (by decide), hread 28 4 (by decide) (by decide) (by decide)]
  | getReceiveTs =>
    simp only [readerData, hread 32 4 (by decide) (by decide) (by decide), hread 36 4 (by decide) (by decide) (by decide)]
  | getTransmitTs =>
    simp only [readerData, hread 40 4 (by decide) (by decide) (by decide), hread 44 4 (by decide) (by decide) (by decide)]
  | serialize => simp only [readerData, packBytes48, hread 0 48 (by decide) (by decide) (by decide)]

/-- Settles O21: a reading command's response is its packed data, which only the bytes it reads enter. -/
theorem readerSeesOnlyItsOwnBytes : Obligations.ReaderSeesOnlyItsOwnBytes := by
  unfold Obligations.ReaderSeesOnlyItsOwnBytes
  intro i hi s₁ s₂ t₁ t₂ p₁ p₂ hparams hb₁ hb₂ hbytes h₁ h₂
  rw [next_inj (exec_reader hi hb₁) h₁, next_inj (exec_reader hi hb₂) h₂, respond_response, respond_response, hparams,
    readerData_congr i _ hbytes]

end Sys2Proof.Machine

namespace Sys2Proof.Machine

/-! ### The host's stream (20_memory.md R48, R51; 70_reset_and_hazards.md R230) -/

theorem run_of_step {s t : State} (h : step s = .next t) (k : Nat) :
    Host.Core.run Sys2Proof.core (k + 1) s = Host.Core.run Sys2Proof.core k t := by
  have hcore : Sys2Proof.core.step s = .next t := h
  simp only [Host.Core.run, hcore]

/-- The state in which the host has just presented `r`. -/
def State.presented (s : State) (r : Request) : State := { s with ports := r, outstanding := true, response := none }

theorem step_command {s : State} (ho : s.outstanding = false) {r : Request} {rest : List HostEvent}
    (hl : s.hostStream = .command r :: rest) :
    step s = .next (State.presented { s with hostStream := rest } r) := by
  obtain ⟨-, h, -⟩ := idleStepTakesTheHostsNextEvent s ho
  exact h r rest hl

theorem step_presented_legal (s : State) {r : Request} {i : Instr} (hd : decode r.cmd = .ok i) :
    step (s.presented r) = exec i (s.presented r) :=
  step_legal rfl hd

theorem step_presented_illegal (s : State) {r : Request} {e : DecodeError} (hd : decode r.cmd = .error e) :
    step (s.presented r) = .next ((s.presented r).respond .illegal 0) :=
  step_illegal rfl hd

/-- A queued command takes two steps: it is presented, then performed. -/
theorem run_command {s t : State} (ho : s.outstanding = false) {r : Request} {rest : List HostEvent}
    (hl : s.hostStream = .command r :: rest) (h : step (State.presented { s with hostStream := rest } r) = .next t) (k : Nat) :
    Host.Core.run Sys2Proof.core (k + 2) s = Host.Core.run Sys2Proof.core k t := by
  rw [run_of_step (step_command ho hl), run_of_step h]

theorem step_reset {s : State} (ho : s.outstanding = false) {rest : List HostEvent}
    (hl : s.hostStream = .reset :: rest) :
    step s = .next { s with hostStream := rest, buf := none, response := none } := by
  obtain ⟨-, -, h⟩ := idleStepTakesTheHostsNextEvent s ho
  exact h rest hl

/-- What the host has queued goes past a command unread. -/
theorem exec_hostStream {i : Instr} {s t : State} (h : exec i s = .next t) (l : List HostEvent) :
    exec i { s with hostStream := l } = .next { t with hostStream := l } := by
  obtain ⟨b, r, e, e'⟩ := exec_congr (i := i) (s₁ := s) (s₂ := { s with hostStream := l }) rfl rfl fun _ => ⟨rfl, rfl⟩
  rw [next_inj e h, e']

/-- The machine takes the first event of its stream as `serveEvent` serves it, and is idle again in front of the rest. -/
theorem run_stepsOf {s : State} (ho : s.outstanding = false) {e : HostEvent} {rest : List HostEvent}
    (hl : s.hostStream = e :: rest) :
    ∃ t : State, t.outstanding = false ∧ t.hostStream = rest ∧
      serveEvent e { s with hostStream := [] } = .next { t with hostStream := [] } ∧
      ∀ k, Host.Core.run Sys2Proof.core (stepsOf e + k) s = Host.Core.run Sys2Proof.core k t := by
  cases e with
  | reset =>
    exact ⟨{ s with hostStream := rest, buf := none, response := none }, ho, rfl, rfl,
      fun k => by rw [stepsOf, Nat.add_comm 1 k, run_of_step (step_reset ho hl)]⟩
  | command r =>
    rw [stepsOf]
    cases hd : decode r.cmd with
    | error e =>
      have hserve : serveEvent (.command r) { s with hostStream := [] } =
          .next (({ s with hostStream := [] } : State).presented r |>.respond .illegal 0) := by
        simp only [serveEvent, hd]
        rfl
      exact ⟨(State.presented { s with hostStream := rest } r).respond .illegal 0, rfl, rfl, hserve,
        fun k => by rw [Nat.add_comm 2 k, run_command ho hl (step_presented_illegal _ hd)]⟩
    | ok i =>
      obtain ⟨st, d, b, hexec⟩ := exec_answers i (State.presented { s with hostStream := rest } r)
      have hserve := exec_hostStream hexec []
      have hstep := (step_presented_legal _ hd).trans hexec
      refine ⟨_, ?idle, ?queue, ?serve, fun k => by rw [Nat.add_comm 2 k, run_command ho hl hstep]⟩
      case idle => rfl
      case queue => rfl
      case serve =>
        simp only [serveEvent, hd]
        exact hserve

theorem run_eq_serveAll (l : List HostEvent) (s : State) (ho : s.outstanding = false) (hl : s.hostStream = l) :
    Host.Core.run Sys2Proof.core (l.map stepsOf).sum s = serveAll l { s with hostStream := [] } := by
  induction l generalizing s with
  | nil =>
    have hs : { s with hostStream := [] } = s := by rw [← hl]
    rw [hs]
    rfl
  | cons e rest ih =>
    obtain ⟨t, hidle, hrest, hserve, hrun⟩ := run_stepsOf ho hl
    rw [List.map_cons, List.sum_cons, hrun, ih t hidle hrest, serveAll, hserve]

/-- Settles O19, by induction on the stream. -/
theorem streamIsServedWholeAndInOrder : Obligations.StreamIsServedWholeAndInOrder := by
  unfold Obligations.StreamIsServedWholeAndInOrder
  exact run_eq_serveAll

/-- With no packet held CREATE and a 48-byte DESERIALIZE are the commands that end OK (70_reset_and_hazards.md R230). -/
theorem exec_ok_iff_of_empty (i : Instr) {s : State} (hb : s.buf = none) :
    ∃ t, exec i s = .next t ∧
      ((∃ d, t.response = some ⟨.ok, d⟩) ↔ i = .create ∨ (i = .deserialize ∧ s.ports.ldLen = 48)) := by
  by_cases hcreate : i = .create
  · subst hcreate
    exact ⟨_, exec_create s, by simp⟩
  by_cases hdeserialize : i = .deserialize
  · subst hdeserialize
    by_cases hlen : s.ports.ldLen = 48
    · exact ⟨_, exec_deserialize_ok hlen, by simp [hlen]⟩
    · exact ⟨_, exec_deserialize_truncated hlen, by simp [hlen]⟩
  · exact ⟨_, exec_invalid hb hcreate hdeserialize, by simp [hcreate, hdeserialize]⟩

/-- Settles O10: the first command after reset finds no packet. -/
theorem firstSuccessAfterResetIsCreateOrDeserialize : Obligations.FirstSuccessAfterResetIsCreateOrDeserialize := by
  unfold Obligations.FirstSuccessAfterResetIsCreateOrDeserialize
  intro p r
  cases hd : decode r.cmd with
  | error e => exact ⟨_, run_command rfl rfl (step_presented_illegal _ hd) 0, by simp⟩
  | ok i =>
    obtain ⟨t, hexec, hok⟩ := exec_ok_iff_of_empty i (s := (State.resetWith p).presented r) rfl
    refine ⟨t, run_command rfl rfl ((step_presented_legal _ hd).trans hexec) 0, ?_⟩
    rw [hok, Except.ok.injEq, Except.ok.injEq]
    rfl

end Sys2Proof.Machine

namespace Sys2Proof.Machine

/-! ### The getters after CREATE (40_construction.md R81) -/

/-- The table of 40_construction.md R81. -/
def defaultAnswers : List (Instr × RspData) :=
  [(.getLeap, 0), (.getVersion, 3), (.getMode, 3), (.getStratum, 0), (.getPoll, 1000000000),
    (.getPrecision, 1000000000), (.getRootDelay, 0), (.getRootDispersion, 0), (.getRefId, 0), (.getRefTs, 0),
    (.getOriginTs, 0), (.getReceiveTs, 0), (.getTransmitTs, 0)]

theorem readerData_defaultPacket (scale : RootScale) :
    ∀ x ∈ defaultAnswers, x.1 ∈ readers ∧ readerData x.1 scale defaultPacket = x.2 := by
  cases scale <;> decide

/-- Settles O27: the packet CREATE leaves is the same in every build, and so is each getter's reading of it. -/
theorem gettersAfterCreateReadTheDefaults : Obligations.GettersAfterCreateReadTheDefaults := by
  unfold Obligations.GettersAfterCreateReadTheDefaults
  intro s t h x hx
  obtain ⟨hi, hdata⟩ := readerData_defaultPacket t.params.rootScale x hx
  have hb : t.buf = some defaultPacket := by rw [next_inj (exec_create s) h, respond_buf, setBuf_buf]
  rw [exec_reader hi hb, hdata]
  rfl

end Sys2Proof.Machine

namespace Sys2Proof.Machine

/-! ### Getters and setters of byte 0 against each other (41_bitfield_flags.md R99 to R101) -/

theorem exec_getter_packU8 {s : State} {p : Packet} (h : s.buf = some p) (f : FlagField) :
    exec (getterOf f) s = .next (s.respond .ok (packU8 (readSubfield f (byteAt p 0 (by decide))))) := by
  rw [exec_reader (getterOf_mem_readers f) h, readerData_getter]

/-- The getter of `f` answers OK with `d`. -/
def State.Reads (s : State) (f : FlagField) (d : RspData) : Prop :=
  ∃ p, s.buf = some p ∧ packU8 (readSubfield f (byteAt p 0 (by decide))) = d

/-- What a sub-field that read `d` reads once `v` is written to it (41_bitfield_flags.md R92, R101). -/
def writtenValue (fw : FlagWrite) (d : RspData) (v : Nat) : RspData :=
  match fw with
  | .or => d ||| BitVec.ofNat 384 v
  | .assign => BitVec.ofNat 384 v

theorem packU8_operandByte {f : FlagField} {v : Nat} (hv : v ≤ f.maximum) : packU8 (operandByte v) = BitVec.ofNat 384 v := by
  have hfits : v < 2 ^ 8 := by cases f <;> simp only [FlagField.maximum] at hv <;> omega
  exact packU8_eq (by rw [operandByte, BitVec.toNat_ofNat, Nat.mod_eq_of_lt hfits])

theorem reads_of_exec_getter {s u : State} {f : FlagField} {d : RspData} (h : exec (getterOf f) s = .next u)
    (hr : u.response = some ⟨.ok, d⟩) : s.Reads f d := by
  cases hb : s.buf with
  | none =>
    cases next_inj (exec_reader_invalid (getterOf_mem_readers f) hb) h
    cases hr
  | some p =>
    cases next_inj (exec_getter_packU8 hb f) h
    cases hr
    exact ⟨p, hb, rfl⟩

theorem State.Reads.getter_answers {s : State} {f : FlagField} {d : RspData} (h : s.Reads f d) :
    exec (getterOf f) s = .next (s.respond .ok d) := by
  obtain ⟨p, hb, rfl⟩ := h
  exact exec_getter_packU8 hb f

/-- A setter in range, as its own getter sees it. -/
theorem State.Reads.after_setter {s : State} {f : FlagField} {d : RspData} (h : s.Reads f d) {v : Nat} (hv : v ≤ f.maximum) :
    ∃ t, exec (setterOf f v) s = .next t ∧ t.params = s.params ∧ t.Reads f (writtenValue s.params.flagWrite d v) := by
  obtain ⟨p, hb, rfl⟩ := h
  refine ⟨_, (exec_setter f v s).trans (setSubfield_writes hb hv), rfl, _, rfl, ?_⟩
  rw [byteAt_writeByte_same, readSubfield_writeSubfield _ hv]
  cases s.params.flagWrite with
  | or => rw [packU8_or, packU8_operandByte hv, writtenValue]
  | assign => rw [packU8_operandByte hv, writtenValue]

/-- Settles O33: a setter that raises keeps byte 0, and one that writes keeps the bits of the other sub-fields. -/
theorem setterLeavesTheOtherSubfields : Obligations.SetterLeavesTheOtherSubfields := by
  unfold Obligations.SetterLeavesTheOtherSubfields
  intro f g v s t us ut hfg ht hus hut
  rcases exec_setter_raises_or_writes f v s with ⟨st, e⟩ | ⟨p, hb, hv, e⟩ <;> obtain rfl := next_inj e ht
  · obtain ⟨b, r, hs, ht'⟩ := exec_congr (i := getterOf g) (s₁ := s) (s₂ := s.respond st 0) rfl rfl fun _ => ⟨rfl, rfl⟩
    rw [next_inj hs hus, next_inj ht' hut]
  · rw [next_inj (exec_getter_packU8 hb g) hus, next_inj (exec_getter_packU8 rfl g) hut, respond_response,
      respond_response, byteAt_writeByte_same, readSubfield_writeSubfield_other _ hfg hv]

/-- Settles O34, with one setter. -/
theorem getterAfterSetterReadsTheWrittenValue : Obligations.GetterAfterSetterReadsTheWrittenValue := by
  unfold Obligations.GetterAfterSetterReadsTheWrittenValue
  intro f v s u₀ d₀ hv hget hd₀
  obtain ⟨t, hset, -, hreads⟩ := (reads_of_exec_getter hget hd₀).after_setter hv
  refine ⟨t, _, hset, hreads.getter_answers, ?_⟩
  rw [respond_response]
  cases s.params.flagWrite <;> rfl

/-- Setters one after the other, as their getter sees them. -/
theorem State.Reads.after_setters {s : State} {f : FlagField} {d : RspData} (h : s.Reads f d) {vs : List Nat}
    (hvs : ∀ v ∈ vs, v ≤ f.maximum) :
    ∃ t, execAll (vs.map (setterOf f)) s = .next t ∧ t.Reads f (vs.foldl (writtenValue s.params.flagWrite) d) := by
  induction vs generalizing s d with
  | nil => exact ⟨s, rfl, h⟩
  | cons v vs ih =>
    obtain ⟨hv, hvs⟩ := List.forall_mem_cons.mp hvs
    obtain ⟨t, hset, hparams, hreads⟩ := h.after_setter hv
    rw [List.map_cons, execAll, hset, List.foldl_cons, ← hparams]
    rw [← hparams] at hreads
    exact ih hreads hvs

/-- Settles O35, by induction on the operands. -/
theorem repeatedSettersAccumulateOrReplace : Obligations.RepeatedSettersAccumulateOrReplace := by
  unfold Obligations.RepeatedSettersAccumulateOrReplace
  intro f vs v s u₀ d₀ hvs hv hget hd₀
  have hall : ∀ x ∈ vs ++ [v], x ≤ f.maximum := by
    intro x hx
    rcases List.mem_append.mp hx with hx | hx
    · exact hvs x hx
    · rw [List.mem_singleton.mp hx]
      exact hv
  obtain ⟨t, hset, hreads⟩ := (reads_of_exec_getter hget hd₀).after_setters hall
  refine ⟨t, _, hset, hreads.getter_answers, ?_⟩
  rw [respond_response]
  cases s.params.flagWrite with
  | or => rfl
  | assign => rw [List.foldl_append]; rfl

end Sys2Proof.Machine

namespace Sys2Proof.Machine

/-! ### Fields by their bytes (43_duration_16_16.md R133; 44_timestamp_32_32.md R156) -/

/-- Where two packets hold the same bytes, they read the same. -/
theorem memRead_congr_getElem? {p q : Packet} {a b n : Nat} (ha : a + n ≤ 48) (hb : b + n ≤ 48)
    (h : ∀ k < n, p[a + k]? = q[b + k]?) : memRead p a n ha = memRead q b n hb := by
  refine memRead_congr p q a b n ha hb fun k hk => ?_
  have hbyte := h k hk
  rw [Vector.getElem?_eq_getElem (by omega), Vector.getElem?_eq_getElem (by omega), Option.some.injEq] at hbyte
  exact hbyte

/-- The count of the 32.32 field at offset `a`. -/
def timestampAt (p : Packet) (a : Nat) (h : a + 8 ≤ 48) : RspData :=
  packTimestamp (ts32 (BitVec.ofNat 32 (memRead p a 4 (by omega))) (BitVec.ofNat 32 (memRead p (a + 4) 4 (by omega))))

theorem timestampAt_congr {p q : Packet} {a b : Nat} (ha : a + 8 ≤ 48) (hb : b + 8 ≤ 48)
    (h : ∀ k < 8, p[a + k]? = q[b + k]?) : timestampAt p a ha = timestampAt q b hb := by
  have hsec := memRead_congr_getElem? (a := a) (b := b) (by omega) (by omega) fun k (hk : k < 4) => h k (by omega)
  have hfrac := memRead_congr_getElem? (a := a + 4) (b := b + 4) (by omega) (by omega) fun k (hk : k < 4) => by
    rw [Nat.add_assoc, Nat.add_assoc]
    exact h (4 + k) (by omega)
  rw [timestampAt, timestampAt, hsec, hfrac]

/-- The timestamp getters and their fields. -/
def timestampFields : List (Instr × Nat) :=
  [(.getRefTs, 16), (.getOriginTs, 24), (.getReceiveTs, 32), (.getTransmitTs, 40)]

theorem response_of_timestampField {x : Instr × Nat} (hx : x ∈ timestampFields) :
    ∃ ha : x.2 + 8 ≤ 48, ∀ {s t : State} {p : Packet}, s.buf = some p → exec x.1 s = .next t →
      t.response = some ⟨.ok, timestampAt p x.2 ha⟩ := by
  simp only [timestampFields, List.mem_cons, List.not_mem_nil, or_false] at hx
  rcases hx with rfl | rfl | rfl | rfl
  all_goals
    refine ⟨by decide, fun hb h => ?_⟩
    rw [next_inj (exec_reader (by decide) hb) h]
    rfl

/-- Settles O43: the four timestamp getters pack the count of their field's bytes, and the two root getters share the
16.16 converter. -/
theorem sameBytesSameAnswerInAnyField : Obligations.SameBytesSameAnswerInAnyField := by
  unfold Obligations.SameBytesSameAnswerInAnyField
  refine ⟨fun x hx y hy s₁ s₂ t₁ t₂ p₁ p₂ hb₁ hb₂ hbytes h₁ h₂ => ?_,
    fun s₁ s₂ t₁ t₂ p₁ p₂ hparams hb₁ hb₂ hbytes h₁ h₂ => ?_⟩
  · obtain ⟨ha, hx⟩ := response_of_timestampField hx
    obtain ⟨hb, hy⟩ := response_of_timestampField hy
    rw [hx hb₁ h₁, hy hb₂ h₂, timestampAt_congr ha hb hbytes]
  · have hword : fieldWord p₁ 4 (by decide) = fieldWord p₂ 8 (by decide) := by
      rw [← memRead_four, ← memRead_four, memRead_congr_getElem? (by decide) (by decide) hbytes]
    rw [next_inj (exec_getRootDelay hb₁) h₁, next_inj (exec_getRootDispersion hb₂) h₂, respond_response,
      respond_response, hparams, hword]

end Sys2Proof.Machine

namespace Sys2Proof.Machine

/-! ### The round trips (45_reference_id.md R171; 46_transfer.md R186) -/

/-- Settles O45: GET_REFID packs the word of bytes 12 to 15 big-endian, so each byte stands at its own place. -/
theorem referenceIdRoundTrips : Obligations.ReferenceIdRoundTrips := by
  unfold Obligations.ReferenceIdRoundTrips
  intro s hlen
  refine ⟨_, _, _, exec_deserialize_ok hlen, exec_getRefId rfl, rfl, fun k hk => ?_⟩
  have hslot : 24 - 8 * k = 8 * (4 - 1 - k) := by omega
  rw [hslot, ← memRead_four, extractLsb'_memRead _ 12 4 (by decide) k hk]
  rfl

theorem unpackBytes48_packBytes48 (p : Packet) : unpackBytes48 (packBytes48 p) = p := by
  ext k hk
  rw [unpackBytes48, Vector.getElem_ofFn, extractLsb'_packBytes48 p hk]

/-- Settles O48: unpacking undoes packing, whichever command comes first. -/
theorem serializeAndDeserializeRoundTrip : Obligations.SerializeAndDeserializeRoundTrip := by
  unfold Obligations.SerializeAndDeserializeRoundTrip
  refine ⟨fun s p hb => ⟨_, _, exec_serialize hb, rfl, fun t hlen hdata => ⟨_, exec_deserialize_ok hlen, ?_⟩⟩,
    fun s hlen => ⟨_, _, _, exec_deserialize_ok hlen, exec_serialize rfl, rfl, unpackBytes48_packBytes48 _⟩⟩
  rw [respond_buf, setBuf_buf, hdata, unpackBytes48_packBytes48, hb]

/-! ### MemRead and MemWrite (00_scope.md R8) -/

theorem memRead_eq_sum (p : Packet) (a n : Nat) (h : a + n ≤ 48) :
    memRead p a n h = ∑ k : Fin n, (p[a + k.val]'(by omega)).toNat * 2 ^ (8 * (n - 1 - k.val)) := by
  induction n with
  | zero => rfl
  | succ n ih =>
    rw [memRead, ih, Fin.sum_univ_castSucc, Finset.sum_mul]
    congr 1
    · refine Finset.sum_congr rfl fun k _ => ?_
      have hexp : 8 * (n + 1 - 1 - k.castSucc.val) = 8 * (n - 1 - k.val) + 8 := by rw [Fin.val_castSucc]; omega
      rw [hexp, Nat.pow_add, Nat.mul_assoc]
      rfl
    · simp [byteAt]

/-- MemWrite puts the value's last byte at the field's last place and the rest of it before. -/
theorem getElem_memWrite (p : Packet) (a n v : Nat) (h : a + n ≤ 48) (j : Nat) (hj : j < 48) :
    (memWrite p a n v h)[j] =
      if a ≤ j ∧ j < a + n then BitVec.ofNat 8 (v / 2 ^ (8 * (n - 1 - (j - a)))) else p[j] := by
  induction n generalizing v with
  | zero => rw [memWrite, if_neg (by omega)]
  | succ n ih =>
    rw [memWrite, writeByte, Vector.getElem_set, ih]
    by_cases hlast : a + n = j
    · have hexp : 8 * (n + 1 - 1 - (j - a)) = 0 := by omega
      rw [if_pos hlast, if_pos (by omega), hexp, Nat.pow_zero, Nat.div_one]
    · rw [if_neg hlast]
      by_cases hin : a ≤ j ∧ j < a + n
      · have hexp : 8 * (n + 1 - 1 - (j - a)) = 8 + 8 * (n - 1 - (j - a)) := by omega
        rw [if_pos hin, if_pos (by omega), hexp, Nat.pow_add, Nat.div_div_eq_div_mul]
      · rw [if_neg hin, if_neg (by omega)]

/-- Settles O49: both operations recurse on the number of bytes, taking the last one off. -/
theorem memReadAndMemWriteAreBigEndian : Obligations.MemReadAndMemWriteAreBigEndian := by
  unfold Obligations.MemReadAndMemWriteAreBigEndian
  exact fun p a n v h => ⟨memRead_eq_sum p a n h, getElem_memWrite p a n v h⟩

end Sys2Proof.Machine

namespace Sys2Proof.Machine

/-! ### The domains of the converters (43_duration_16_16.md R131; 44_timestamp_32_32.md R151) -/

/-- The fraction is under one second, so a whole second outweighs it. -/
theorem fraction_lt_second (frac : BitVec 32) : frac.toNat * 1000000000 / 2 ^ 32 ≤ 999999999 := by
  have := frac.isLt
  omega

theorem ts32_toNat_le (sec frac : BitVec 32) : (ts32 sec frac).toNat ≤ 4294967295999999999 := by
  have := sec.isLt
  have := fraction_lt_second frac
  rw [ts32_toNat]
  omega

theorem ts32_toInt (sec frac : BitVec 32) : (ts32 sec frac).toInt = (ts32 sec frac).toNat := by
  have := ts32_toNat_le sec frac
  exact BitVec.toInt_eq_toNat_of_lt (by omega)

theorem ts32_lt_of_sec_lt {sec sec' : BitVec 32} (frac frac' : BitVec 32) (h : sec.toNat < sec'.toNat) :
    (ts32 sec frac).toNat < (ts32 sec' frac').toNat := by
  have := fraction_lt_second frac
  rw [ts32_toNat, ts32_toNat]
  omega

theorem ts32_mono {sec frac sec' frac' : BitVec 32} (h : (sec ++ frac).toNat ≤ (sec' ++ frac').toNat) :
    (ts32 sec frac).toNat ≤ (ts32 sec' frac').toNat := by
  have := frac.isLt
  have := frac'.isLt
  rw [toNat_append_eq_add, toNat_append_eq_add] at h
  rcases Nat.lt_or_ge sec.toNat sec'.toNat with hsec | hsec
  · exact (ts32_lt_of_sec_lt frac frac' hsec).le
  · have hsec_eq : sec.toNat = sec'.toNat := by omega
    have hfrac : frac.toNat ≤ frac'.toNat := by omega
    rw [ts32_toNat, ts32_toNat, hsec_eq]
    exact Nat.add_le_add_left (Nat.div_le_div_right (Nat.mul_le_mul_right _ hfrac)) _

/-- Settles O42: the count is the seconds in nanoseconds and less than a second more. -/
theorem thirtyTwoThirtyTwoIsBoundedAndMonotone : Obligations.ThirtyTwoThirtyTwoIsBoundedAndMonotone := by
  unfold Obligations.ThirtyTwoThirtyTwoIsBoundedAndMonotone
  exact fun sec frac sec' frac' =>
    ⟨fraction_lt_second frac, ts32_toNat_le sec frac, ts32_toInt sec frac, ts32_mono, ts32_lt_of_sec_lt frac frac'⟩

/-- A 16.16 word is its signed high half over its unsigned low half (20_memory.md R42). -/
theorem toInt_eq_halves (w : BitVec 32) :
    w.toInt = (w.extractLsb' 16 16).toInt * 65536 + (w.extractLsb' 0 16).toNat := by
  have := w.isLt
  have hhigh : (w.extractLsb' 16 16).toNat = w.toNat / 65536 := by
    simp only [BitVec.extractLsb'_toNat, Nat.shiftRight_eq_div_pow]
    omega
  have hlow : (w.extractLsb' 0 16).toNat = w.toNat % 65536 := by simp [BitVec.extractLsb'_toNat]
  rw [BitVec.toInt_eq_toNat_cond, BitVec.toInt_eq_toNat_cond, hhigh, hlow]
  split <;> split <;> omega

/-- Rounding the fraction alone rounds the whole number down: the seconds are whole. -/
theorem fx16Elapsed_eq_floor (w : BitVec 32) : fx16Elapsed w = w.toInt * 1000000000 / 65536 := by
  rw [fx16Elapsed, toInt_eq_halves, nsPerSecond]
  push_cast
  omega

theorem fx16Elapsed_bounds (w : BitVec 32) : -32768000000000 ≤ fx16Elapsed w ∧ fx16Elapsed w ≤ 32767999984741 := by
  have hlow : -2147483648 ≤ w.toInt := w.le_toInt
  have hhigh : w.toInt < 2147483648 := w.toInt_lt
  rw [fx16Elapsed_eq_floor]
  omega

/-- A count that fits 64 bits is held exactly, and only such a count is. -/
theorem toInt_ofInt_64_eq_iff (z : Int) :
    (BitVec.ofInt 64 z).toInt = z ↔ -9223372036854775808 ≤ z ∧ z < 9223372036854775808 := by
  rw [BitVec.toInt_ofInt, Int.bmod_eq_iff (by decide)]
  simp

theorem fx16_rfc_toInt (w : BitVec 32) : (fx16 .rfc w).toInt = fx16Elapsed w := by
  have := fx16Elapsed_bounds w
  rw [fx16_rfc, toInt_ofInt_64_eq_iff]
  omega

/-- Settles O40: the elapsed count is the floor of the signed 16.16 number, it fits 64 bits, and its LEGACY product does
only within about 9.2 seconds. -/
theorem sixteenSixteenIsFlooredAndBounded : Obligations.SixteenSixteenIsFlooredAndBounded := by
  unfold Obligations.SixteenSixteenIsFlooredAndBounded
  intro w
  obtain ⟨hlow, hhigh⟩ := fx16Elapsed_bounds w
  rw [fx16_rfc_toInt, fx16_legacy, toInt_ofInt_64_eq_iff]
  exact ⟨fx16Elapsed_eq_floor w, hlow, hhigh, by omega⟩

end Sys2Proof.Machine

namespace Sys2Proof.Machine

/-! ### The log2 converter over its domain (42_byte_fields_log2.md R114) -/

section leftShift
variable {b : Byte}

/-- The exact count grows with the exponent. -/
theorem second_mul_pow_le {m n : Nat} (h : m ≤ n) : (1000000000 * 2 ^ m : Int) ≤ 1000000000 * 2 ^ n :=
  Int.mul_le_mul_of_nonneg_left (pow_le_pow_right₀ (by decide) h) (by decide)

/-- Up to exponent 33 the count fits 64 bits. -/
theorem log2dur_exact (h : 1 ≤ b.toInt) (h' : b.toInt ≤ 33) :
    (log2dur b).toInt = 1000000000 * 2 ^ b.toInt.toNat := by
  have hle : (1000000000 * 2 ^ b.toInt.toNat : Int) ≤ 1000000000 * 2 ^ 33 := second_mul_pow_le (by omega)
  have hpos : (0 : Int) < 2 ^ b.toInt.toNat := by positivity
  rw [log2dur_of_pos (by omega), toInt_ofInt_64_eq_iff]
  omega

/-- `10^9` holds nine factors 2, so the count's low 64 bits are all 0 from exponent 55 on and not before. -/
theorem log2dur_eq_zero_iff (h : 0 < b.toInt) : log2dur b = 0 ↔ 55 ≤ b.toInt := by
  have hfactor : 1000000000 * 2 ^ b.toInt.toNat = 5 ^ 9 * 2 ^ (9 + b.toInt.toNat) := by
    rw [Nat.pow_add, ← Nat.mul_assoc]
    norm_num
  have hcoprime : Nat.Coprime (2 ^ 64) (5 ^ 9) := by decide
  calc log2dur b = 0
      ↔ BitVec.ofNat 64 (1000000000 * 2 ^ b.toInt.toNat) = 0#64 := by
        rw [log2dur_of_pos h, ← BitVec.ofInt_natCast]
        push_cast
        rfl
    _ ↔ 2 ^ 64 ∣ 1000000000 * 2 ^ b.toInt.toNat := by
        rw [← BitVec.toNat_inj, BitVec.toNat_ofNat, BitVec.toNat_ofNat, Nat.zero_mod, Nat.dvd_iff_mod_eq_zero]
    _ ↔ 64 ≤ 9 + b.toInt.toNat := by
        rw [hfactor, hcoprime.dvd_mul_left, Nat.pow_dvd_pow_iff_le_right (by decide)]
    _ ↔ 55 ≤ b.toInt := by omega

/-- From exponent 34 on the exact count is above every 64-bit value. -/
theorem log2dur_inexact (h : 34 ≤ b.toInt) : (log2dur b).toInt ≠ 1000000000 * 2 ^ b.toInt.toNat := by
  have hle : (1000000000 * 2 ^ 34 : Int) ≤ 1000000000 * 2 ^ b.toInt.toNat := second_mul_pow_le (by omega)
  rw [log2dur_of_pos (by omega), Ne, toInt_ofInt_64_eq_iff]
  omega

theorem log2dur_wraps (h : 0 < b.toInt) :
    (log2dur b).toInt = (1000000000 * 2 ^ b.toInt.toNat : Int).bmod (2 ^ 64) := by
  rw [log2dur_of_pos h, BitVec.toInt_ofInt]

end leftShift

section rightShift
variable {b : Byte}

theorem log2dur_neg_toInt (h : b.toInt < 0) : (log2dur b).toInt = (1000000000 / 2 ^ (-b.toInt).toNat : Nat) := by
  have hle : 1000000000 / 2 ^ (-b.toInt).toNat ≤ 1000000000 := Nat.div_le_self _ _
  rw [log2dur_of_neg h]
  generalize 1000000000 / 2 ^ (-b.toInt).toNat = q at hle
  have hq : (BitVec.ofNat 64 q).toNat = q := by rw [BitVec.toNat_ofNat, Nat.mod_eq_of_lt (by omega)]
  rw [BitVec.toInt_eq_toNat_of_lt (by omega), hq]

/-- A shift by at most nine loses no bit of `10^9`. -/
theorem log2dur_neg_exact (h : -9 ≤ b.toInt) (h' : b.toInt < 0) :
    (log2dur b).toInt * 2 ^ (-b.toInt).toNat = 1000000000 := by
  have hdvd : 2 ^ (-b.toInt).toNat ∣ 1000000000 := (Nat.pow_dvd_pow 2 (by omega)).trans (by decide : 2 ^ 9 ∣ 1000000000)
  rw [log2dur_neg_toInt h']
  exact_mod_cast Nat.div_mul_cancel hdvd

/-- A longer shift loses bits of `10^9`, and up to 29 not all of them. -/
theorem log2dur_neg_truncated (h : -29 ≤ b.toInt) (h' : b.toInt < -9) :
    0 < (log2dur b).toInt ∧ (log2dur b).toInt * 2 ^ (-b.toInt).toNat < 1000000000 ∧
      1000000000 < ((log2dur b).toInt + 1) * 2 ^ (-b.toInt).toNat := by
  have hdvd : ¬ 2 ^ (-b.toInt).toNat ∣ 1000000000 := fun hd =>
    absurd ((Nat.pow_dvd_pow 2 (by omega)).trans hd) (by decide : ¬ 2 ^ 10 ∣ 1000000000)
  have hle : 2 ^ (-b.toInt).toNat ≤ 2 ^ 29 := Nat.pow_le_pow_right (by decide) (by omega)
  have hpos : 0 < 2 ^ (-b.toInt).toNat := Nat.two_pow_pos _
  rw [log2dur_neg_toInt (by omega)]
  refine ⟨?_, ?_, ?_⟩
  · exact_mod_cast Nat.div_pos (by omega) hpos
  · exact_mod_cast (Nat.div_mul_le_self _ _).lt_of_ne fun he => hdvd (Dvd.intro_left _ he)
  · exact_mod_cast Nat.lt_mul_of_div_lt (Nat.lt_succ_self _) hpos

theorem log2dur_neg_zero (h : b.toInt < -29) : log2dur b = 0 := by
  have hlt : 1000000000 < 2 ^ (-b.toInt).toNat :=
    lt_of_lt_of_le (by decide : 1000000000 < 2 ^ 30) (Nat.pow_le_pow_right (by decide) (by omega))
  rw [log2dur_of_neg (by omega), Nat.div_eq_of_lt hlt]
  rfl

end rightShift

/-- Settles O38: `10^9` is `2^9` times an odd number and lies between `2^29` and `2^30`; every bound of the ranges comes from
these and from the 64 bits of the count. -/
theorem log2DurationByRangeOfExponent : Obligations.Log2DurationByRangeOfExponent := by
  unfold Obligations.Log2DurationByRangeOfExponent
  intro s p hb x hx
  obtain ⟨b, hexponent, hexec⟩ : ∃ b : Byte, x.2 = b.toInt ∧ exec x.1 s = .next (s.respond .ok (packDuration (log2dur b))) := by
    simp only [List.mem_cons, List.not_mem_nil, or_false] at hx
    rcases hx with rfl | rfl
    · exact ⟨_, rfl, exec_getPoll hb⟩
    · exact ⟨_, rfl, exec_getPrecision hb⟩
  rw [hexponent]
  exact ⟨log2dur b, hexec, log2dur_exact,
    fun h h' => ⟨log2dur_wraps (by omega), fun h0 => absurd ((log2dur_eq_zero_iff (by omega)).mp h0) (by omega),
      log2dur_inexact h⟩,
    fun h => (log2dur_eq_zero_iff (by omega)).mpr h, fun h => congrArg BitVec.toInt (log2dur_of_zero h),
    log2dur_neg_exact, log2dur_neg_truncated, log2dur_neg_zero⟩

end Sys2Proof.Machine

namespace Sys2Proof.Machine

/-! ### The words of a line (30_encoding.md R70) -/

/-- A word that neither a blank nor a comment can break. -/
structure IsWord (w : List Char) : Prop where
  nonempty : w ≠ []
  unbroken : ∀ c ∈ w, c ≠ ' ' ∧ c ≠ '\t' ∧ c ≠ ';'

/-- The line that holds a word and then more words, one blank before each. -/
def spaced (w : List Char) (ws : List (List Char)) : List Char := w ++ ws.flatMap fun v => ' ' :: v

theorem pieces_word_append {w : List Char} (hw : ∀ c ∈ w, c ≠ ' ' ∧ c ≠ '\t' ∧ c ≠ ';') {cs v : List Char}
    {vs : List (List Char)} (hcs : pieces cs = v :: vs) : pieces (w ++ cs) = (w ++ v) :: vs := by
  induction w with
  | nil => exact hcs
  | cons c w ih =>
    obtain ⟨⟨hspace, htab, -⟩, hw⟩ := List.forall_mem_cons.mp hw
    rw [List.cons_append, pieces, if_neg (not_or.mpr ⟨hspace, htab⟩), ih hw]
    rfl

theorem pieces_spaced {w : List Char} {ws : List (List Char)} (hw : IsWord w) (hws : ∀ v ∈ ws, IsWord v) :
    pieces (spaced w ws) = w :: ws := by
  induction ws generalizing w with
  | nil =>
    rw [spaced, List.flatMap_nil, pieces_word_append hw.unbroken (v := []) (vs := []) rfl, List.append_nil]
  | cons v vs ih =>
    obtain ⟨hv, hvs⟩ := List.forall_mem_cons.mp hws
    have hrest : pieces (' ' :: spaced v vs) = [] :: v :: vs := by rw [pieces, if_pos (.inl rfl), ih hv hvs]
    have hline := pieces_word_append hw.unbroken hrest
    rw [List.append_nil] at hline
    exact hline

theorem no_comment_spaced {w : List Char} {ws : List (List Char)} (hw : IsWord w) (hws : ∀ v ∈ ws, IsWord v) :
    stripComment (spaced w ws) = spaced w ws := by
  refine List.takeWhile_eq_self_iff.mpr fun c hc => decide_eq_true ?_
  rcases List.mem_append.mp hc with hc | hc
  · obtain ⟨-, -, h⟩ := hw.unbroken c hc
    exact h
  · obtain ⟨v, hv, hc⟩ := List.mem_flatMap.mp hc
    rcases List.mem_cons.mp hc with rfl | hc
    · decide
    · obtain ⟨-, -, h⟩ := (hws v hv).unbroken c hc
      exact h

theorem tokens_spaced {w : List Char} {ws : List (List Char)} (hw : IsWord w) (hws : ∀ v ∈ ws, IsWord v) :
    tokens (spaced w ws) = w :: ws := by
  rw [tokens, no_comment_spaced hw hws, pieces_spaced hw hws]
  refine List.filter_eq_self.mpr fun v hv => ?_
  have hword : IsWord v := (List.mem_cons.mp hv).elim (fun h => h ▸ hw) (hws v)
  simpa using hword.nonempty

/-! ### Mnemonics -/

theorem formatOf_withImmediate (v : Nat) (i : Instr) : formatOf (withImmediate v i) = formatOf i := by
  cases i <;> rfl

theorem withImmediate_of_format_ne {i : Instr} (h : formatOf i ≠ .immediate) (v : Nat) : withImmediate v i = i := by
  cases i with
  | setLeap | setVersion | setMode => exact absurd rfl h
  | create | getLeap | getVersion | getMode | getStratum | getPoll | getPrecision | getRootDelay | getRootDispersion
  | getRefId | getRefTs | getOriginTs | getReceiveTs | getTransmitTs | serialize | deserialize => rfl

theorem withImmediate_immediate (i : Instr) : withImmediate i.immediate (withImmediate 0 i) = i := by
  cases i <;> rfl

theorem isWord_mnemonic (i : Instr) : IsWord (mnemonic i) := by
  have hall : (mnemonic i).all (fun c => c != ' ' && c != '\t' && c != ';') = true := by cases i <;> rfl
  refine ⟨by cases i <;> exact List.cons_ne_nil _ _, fun c hc => ?_⟩
  simpa [and_assoc] using List.all_eq_true.mp hall c hc

/-- No two rows share a mnemonic. -/
theorem find_mnemonic (i : Instr) :
    (templates.find? fun t => mnemonic t = mnemonic i) = some (withImmediate 0 i) := by
  cases i <;> rfl

/-! ### Immediates -/

theorem decDigit_of_isDigit {c : Char} (h : c.isDigit = true) : decDigit c = some (c.toNat - '0'.toNat) :=
  if_pos (Char.isDigit_iff_toNat.mp h)

theorem parseDigits_decimal {w : List Char} (hw : ∀ c ∈ w, c.isDigit = true) (acc : Nat) :
    parseDigits 10 decDigit acc w = some (Nat.ofDigitChars 10 w acc) := by
  induction w generalizing acc with
  | nil => rfl
  | cons c w ih =>
    obtain ⟨hc, hw⟩ := List.forall_mem_cons.mp hw
    rw [parseDigits, decDigit_of_isDigit hc, Nat.ofDigitChars_cons, Nat.mul_comm 10]
    exact ih hw _

/-- Decimal digits are read as decimal: the `x` of the hexadecimal form is none of them. -/
theorem parseNumber_decimal {w : List Char} (hne : w ≠ []) (hw : ∀ c ∈ w, c.isDigit = true) :
    parseNumber w = some (Nat.ofDigitChars 10 w 0) := by
  rw [← parseDigits_decimal hw]
  unfold parseNumber
  split
  · exact absurd rfl hne
  · exact absurd (hw 'x' (by simp)) (by decide)
  · rfl

theorem isDigit_of_mem_toDigits {v : Nat} : ∀ c ∈ Nat.toDigits 10 v, c.isDigit = true :=
  fun _ hc => Nat.isDigit_of_mem_toDigits (by decide) (by decide) hc

theorem parseNumber_toDigits (v : Nat) : parseNumber (Nat.toDigits 10 v) = some v := by
  rw [parseNumber_decimal Nat.toDigits_ne_nil isDigit_of_mem_toDigits,
    Nat.ofDigitChars_toDigits (by decide) (by decide)]

theorem isWord_toDigits (v : Nat) : IsWord (Nat.toDigits 10 v) := by
  refine ⟨Nat.toDigits_ne_nil, fun c hc => ?_⟩
  have hdigit := isDigit_of_mem_toDigits c hc
  refine ⟨?_, ?_, ?_⟩ <;> rintro rfl <;> exact absurd hdigit (by decide)

/-! ### Bytes -/

theorem hexDigit_digitChar : ∀ x < 16, hexDigit (Nat.digitChar x) = some x := by decide

theorem isWord_hexPair (b : Byte) : IsWord (hexPair b) := by
  have hdigit : ∀ x < 16, Nat.digitChar x ≠ ' ' ∧ Nat.digitChar x ≠ '\t' ∧ Nat.digitChar x ≠ ';' := by decide
  have hb := b.isLt
  refine ⟨List.cons_ne_nil _ _, fun c hc => ?_⟩
  simp only [hexPair, List.mem_cons, List.not_mem_nil, or_false] at hc
  rcases hc with rfl | rfl
  · exact hdigit _ (by omega)
  · exact hdigit _ (by omega)

theorem parsePairs_hexPair (b : Byte) : parsePairs (hexPair b) = some [b] := by
  have hb := b.isLt
  have hhigh := hexDigit_digitChar (b.toNat / 16) (by omega)
  have hlow := hexDigit_digitChar (b.toNat % 16) (by omega)
  simp only [hexPair, parsePairs, hhigh, hlow, Nat.div_add_mod', BitVec.ofNat_toNat, BitVec.setWidth_eq]

theorem parseBytes_map_hexPair (bytes : List Byte) : parseBytes (bytes.map hexPair) = some bytes := by
  induction bytes with
  | nil => rfl
  | cons b bytes ih => simp only [List.map_cons, parseBytes, parsePairs_hexPair, ih, List.singleton_append]

/-! ### A rendered line assembles to its request (30_encoding.md R70) -/

/-- The operand words of a rendered line. -/
def operandWords (i : Instr) (bytes : List Byte) : List (List Char) :=
  match formatOf i with
  | .noOperand => []
  | .immediate => [Nat.toDigits 10 i.immediate]
  | .data => bytes.map hexPair

theorem renderLine_eq_spaced (i : Instr) (bytes : List Byte) :
    renderLine i bytes = spaced (mnemonic i) (operandWords i bytes) := by
  unfold renderLine operandWords spaced
  cases formatOf i with
  | noOperand => simp
  | immediate => simp
  | data => simp [List.flatMap_map]

theorem isWord_operandWords (i : Instr) (bytes : List Byte) : ∀ w ∈ operandWords i bytes, IsWord w := by
  unfold operandWords
  cases formatOf i with
  | noOperand => simp
  | immediate => simpa using isWord_toDigits i.immediate
  | data => simpa using fun b _ => isWord_hexPair b

/-- The request a rendered line stands for. -/
def requestOf (i : Instr) (bytes : List Byte) : Request :=
  match formatOf i with
  | .noOperand | .immediate => plainRequest i
  | .data => dataRequest i bytes

theorem assembleWords_operandWords {i : Instr} (h : i.WellFormed) (bytes : List Byte) :
    assembleWords (mnemonic i) (operandWords i bytes) = .ok (requestOf i bytes) := by
  rw [assembleWords, find_mnemonic, operandWords, requestOf]
  have hformat := formatOf_withImmediate 0 i
  cases hf : formatOf i with
  | noOperand =>
    simp only [hformat, hf]
    rw [withImmediate_of_format_ne (by simp [hf])]
  | immediate =>
    simp only [hformat, hf, parseNumber_toDigits, if_pos h, withImmediate_immediate]
  | data =>
    simp only [hformat, hf, parseBytes_map_hexPair]
    rw [withImmediate_of_format_ne (by simp [hf])]

theorem assembleLine_renderLine {i : Instr} (h : i.WellFormed) (bytes : List Byte) :
    assembleLine (renderLine i bytes) = .ok (some (requestOf i bytes)) := by
  rw [renderLine_eq_spaced, assembleLine, tokens_spaced (isWord_mnemonic i) (isWord_operandWords i bytes)]
  simp only [assembleWords_operandWords h, Except.map]

theorem requestOf_cmd (i : Instr) (bytes : List Byte) : (requestOf i bytes).cmd = encode i := by
  unfold requestOf
  cases formatOf i <;> rfl

/-- Settles O5: the words of the rendered line are the mnemonic and its operands, and each reads back as what it spells. -/
theorem assembledLineCarriesTheEncodedCommand : Obligations.AssembledLineCarriesTheEncodedCommand := by
  unfold Obligations.AssembledLineCarriesTheEncodedCommand
  intro i bytes h
  refine ⟨_, assembleLine_renderLine h bytes, requestOf_cmd i bytes, ?_⟩
  rintro rfl
  refine ⟨rfl, fun k hk hb => ?_⟩
  simp [requestOf, formatOf, dataRequest, loadPort, hb]

end Sys2Proof.Machine
